-- ==== Sys2Proof/Config.lean ====
section
/-! DEFINITION. The block's elaboration-time parameters (00_scope.md R6 to R11) and the level of `rst`
when the environment supplies no stimulus (log 2). There is no free value: no behaviour of the block
is left open (93_implementation_defined.md). -/

namespace Sys2Proof

/-- A parameter set of the block: divider width `W` (R6), number of LEDs `N` (R7), trail bit `T` (R8).
The position width `P` is derived from `N` (R10, `Sys2Proof.Machine.posWidth`). -/
structure Params where
  W : Nat
  N : Nat
  T : Nat
deriving DecidableEq, Repr

namespace Config

/-- Divider width of the normative instance (R6). -/
abbrev W : Nat := 23
/-- Number of LEDs of the normative instance (R7). -/
abbrev N : Nat := 8
/-- Trail bit of the normative instance, `W - 2` (R8). -/
abbrev T : Nat := 21
/-- Position width of the normative instance (R10). -/
abbrev P : Nat := 3

/-- The normative instance (R11). -/
abbrev normative : Params := ⟨W, N, T⟩

/-- DESIGN CHOICE, log 2 (unsafe): the level of `rst` at an edge for which the environment has
supplied no stimulus. Tied to 0 it "is the source's machine exactly" (10_state.md R35). -/
def rstIdle : BitVec 1 := 0#1

end Config
end Sys2Proof
end

