-- ==== Sys2Proof/Syntax.lean ====
section
/-! DEFINITION. The rows of spec/opcode_table.json. What the spec calls an instruction is the operation
performed at one clock edge, or the output function (00_scope.md R3). -/

namespace Sys2Proof

/-- One constructor per row of the opcode table. None has an operand field (30_encoding.md R80). -/
inductive Instr where
  /-- TICK, `IW = 0` (40_edge_ops.md R100). -/
  | tick
  /-- RESET, `IW = 1` (40_edge_ops.md R113). -/
  | reset
  /-- PATTERN, combinational, selected by no input word (41_pattern.md R140, 30_encoding.md R83). -/
  | pattern
deriving DecidableEq, Repr

end Sys2Proof
end

