-- ==== Sys2Proof/WellFormed.lean ====
section
/-! DEFINITION. What the spec checks: instructions (nothing to check), parameters (00_scope.md R6 to R8)
and the start state of a construction (60_exceptions.md R205). -/

namespace Sys2Proof

/-- Every instruction is well formed: none has an operand (30_encoding.md R80) and no encoding is
reserved or illegal (R84). -/
def Instr.wf : Instr → Bool
  | .tick => true
  | .reset => true
  | .pattern => true

/-- `W >= 1` (R6). -/
def Params.widthOk (p : Params) : Bool := decide (1 ≤ p.W)
/-- `N >= 1` (R7). -/
def Params.ledsOk (p : Params) : Bool := decide (1 ≤ p.N)
/-- `0 <= T <= W-1` (R8), written without subtraction. -/
def Params.trailOk (p : Params) : Bool := decide (p.T < p.W)
/-- The legal parameter sets (R6 to R8). -/
def Params.wf (p : Params) : Bool := p.widthOk && p.ledsOk && p.trailOk

/-- The parameters with the trail bit at its default `T = W-2`, which needs `W >= 2` (R6, R8). -/
def Params.withDefaultTrail (W N : Nat) : Option Params :=
  if 2 ≤ W then some ⟨W, N, W - 2⟩ else none

/-- A start divider value fits its register: `divider < 2^W` (60_exceptions.md R205). -/
def Params.dividerOk (p : Params) (divider : Nat) : Bool := decide (divider < 2 ^ p.W)
/-- A start position is an LED index: `position < N` (10_state.md R25, 60_exceptions.md R205). -/
def Params.positionOk (p : Params) (position : Nat) : Bool := decide (position < p.N)

end Sys2Proof
end

