-- ==== Sys2Proof/Word.lean ====
section
/-! DEFINITION. The words of the block: the one-bit input word sampled at a clock edge, and what the
environment may do to the block. The block stores and moves no bytes (20_memory.md R60, R61). -/

namespace Sys2Proof

/-- The input word `IW` of one edge: `IW[0] = rst` (30_encoding.md R81). -/
abbrev InputWord := BitVec 1

/-- What the environment can do (60_exceptions.md R213): supply a rising edge of `clk` with `rst` set
to a level, or read `led` within a cycle. -/
inductive Stimulus where
  /-- One rising edge of `clk`, at which `rst` is sampled as `iw` (R34, R35). -/
  | edge (iw : InputWord)
  /-- The environment reads `led`; no edge happens (R149, R213). -/
  | readLed
deriving DecidableEq, Repr

end Sys2Proof
end

