-- ==== Sys2Proof/Decode.lean ====
section
/-! DEFINITION. Operation selection (30_encoding.md R81 to R84), as a decoder that is total on any
number, and the encoder after it. -/

namespace Sys2Proof

/-- The operation an edge performs (R82): `rst = 1` selects RESET, `rst = 0` selects TICK. Both values
of the input word are defined (R84) and none selects PATTERN (R83). -/
def decodeEdge (iw : InputWord) : Instr :=
  if iw = 1#1 then .reset else .tick

/-- The operation a stimulus performs: an edge the one its input word selects, a read of `led` the
output function PATTERN. -/
def decodeStimulus : Stimulus → Instr
  | .edge iw => decodeEdge iw
  | .readLed => .pattern

/-- Why a number is the layout of no operation (log 5). -/
inductive DecodeReject where
  /-- A bit above bit 0 is set; the input word is one bit wide (R81). -/
  | bitsOutsideInputWord
  /-- A word of no bits, PATTERN's COMB format (R83), given a value that is not 0. -/
  | bitsInEmptyWord
deriving DecidableEq, Repr

/-- The stimulus that a row's bits stand for. A row of the table with no bits is PATTERN's COMB row
(log 4); any other row is an EDGE row, one bit in a container whose other bits are 0 (log 5). -/
def stimulusOfWord (nbits w : Nat) : Except DecodeReject Stimulus :=
  if nbits = 0 then
    if w = 0 then .ok .readLed else .error .bitsInEmptyWord
  else
    if w < 2 then .ok (.edge (BitVec.ofNat 1 w)) else .error .bitsOutsideInputWord

/-- The decoder: total, rejecting by name. -/
def decodeWord (nbits w : Nat) : Except DecodeReject Instr :=
  match stimulusOfWord nbits w with
  | .ok e => .ok (decodeStimulus e)
  | .error r => .error r

/-- What `decodeWord` reads from a word numbered as the opcode table numbers it. -/
def decodeTableWord (nbits w : Nat) : Option Instr :=
  match decodeWord nbits w with
  | .ok i => some i
  | .error _ => none

/-- The encoder: the stimulus that performs an instruction (R82, R83). -/
def encode : Instr → Stimulus
  | .tick => .edge 0#1
  | .reset => .edge 1#1
  | .pattern => .readLed

/-- A stimulus as a word: how many bits it has, and their value. -/
def Stimulus.word : Stimulus → Nat × Nat
  | .edge iw => (1, iw.toNat)
  | .readLed => (0, 0)

/-- The bits of an instruction: one for TICK and RESET (R81), none for PATTERN (R83). -/
def encodeWord (i : Instr) : Nat × Nat := (encode i).word

/-- The input word of a stimulus, if it is an edge. -/
def Stimulus.inputWord : Stimulus → Option InputWord
  | .edge iw => some iw
  | .readLed => none

/-- The input words of a list of stimuli, one per edge: the encoding of a program (R86). -/
def inputWords (es : List Stimulus) : List InputWord := es.filterMap Stimulus.inputWord

end Sys2Proof
end

