-- ==== Sys2Proof/Machine/State.lean ====
section
/-! DEFINITION. The block's state (10_state.md R20 to R25), what the environment has supplied and read
(60_exceptions.md R213), the reasons to stop, and the state after reset (R38). -/

namespace Sys2Proof.Machine

/-- The direction of the head (R23): `right` to higher indices, `left` to lower ones. Its one-bit
encoding (R24) is `Direction.dirbit`. -/
inductive Direction where
  | right
  | left
deriving DecidableEq, Repr

/-- The persistent state of a block with a `W`-bit divider and a `P`-bit position: exactly this triple
(R20). -/
structure Regs (W P : Nat) where
  /-- The free-running counter (R21). -/
  divider : BitVec W
  /-- The index of the head LED (R22). -/
  position : BitVec P
  /-- The bounce flag (R23). -/
  direction : Direction
deriving DecidableEq, Repr

/-- The machine: the block at the normative instance (00_scope.md R11), and the environment's side of
its ports. `led` is no field: it is combinational and never stored (R31). -/
structure State where
  /-- The block's registers. -/
  regs : Regs Config.W Config.P
  /-- The stimuli the environment has still to apply, the next one first (R213; log 1). -/
  pending : List Stimulus
  /-- The values of `led` the environment has read, the latest first (R212, R213; log 3). Nothing in
  the block reads it. -/
  observed : List (BitVec Config.N)
deriving DecidableEq, Repr

/-- Why a step faults: there is no reason. The block raises no exception and no error condition exists
(60_exceptions.md R200; 93_implementation_defined.md: nothing is modelled as a fault). Safe: by its
type no step of the model faults (log 20). -/
inductive Fault where
deriving DecidableEq, Repr

/-- Why a step is refused. -/
inductive Refusal where
  /-- Raised by `exec` for an instruction that has no meaning yet; no arm raises it. Safe. -/
  | notModelled (mnemonic : String)
deriving DecidableEq, Repr

/-- After reset and at construction (R38, 70_reset_and_hazards.md R230): `divider = 0`, `position = 0`,
`direction = Right`. The environment has supplied and read nothing (log 1, log 3). -/
def State.reset : State where
  regs := { divider := 0#23, position := 0#3, direction := .right }
  pending := []
  observed := []

end Sys2Proof.Machine
end

