-- ==== Sys2Proof/Machine/Operands.lean ====
section
/-! DEFINITION. What the operations read. No operation has an operand field (30_encoding.md R80): TICK
reads the pre-edge triple (40_edge_ops.md R100), PATTERN the head and the trail phase
(41_pattern.md R140), RESET nothing (R113). -/

namespace Sys2Proof.Machine

/-- `direction` as one bit, `Right = 0` and `Left = 1` (10_state.md R24). -/
def Direction.dirbit : Direction → BitVec 1
  | .right => 0#1
  | .left => 1#1

/-- The direction that a bit holds (R24). -/
def Direction.ofDirbit (b : BitVec 1) : Direction :=
  if b = 0#1 then .right else .left

/-- The index of the head LED (10_state.md R22). -/
def Regs.head {W P : Nat} (r : Regs W P) : Nat := r.position.toNat

/-- The head is at the boundary `N-1` for Right (00_scope.md R15, R7). -/
def atRightBoundary {W P : Nat} (N : Nat) (r : Regs W P) : Bool := r.head == N - 1

/-- The head is at the boundary 0 for Left (R15). -/
def atLeftBoundary {W P : Nat} (r : Regs W P) : Bool := r.head == 0

/-- `onehot_N(p)`: the `N`-bit value with only bit `p` set (00_scope.md R12). -/
def onehot (N p : Nat) : BitVec N := 1#N <<< p

end Sys2Proof.Machine
end

