-- ==== Sys2Proof/Machine/Flags.lean ====
section
/-! DEFINITION. The one stored flag, `direction` (10_state.md R28), the two combinational flags `stepEn`
and `trailOn` (R29, R30), and the five cases of TICK they choose among (30_encoding.md R85). -/

namespace Sys2Proof.Machine

/-- `divider_next = (divider + 1) mod 2^W` (40_edge_ops.md R101). -/
def dividerNext {W : Nat} (divider : BitVec W) : BitVec W := divider + 1#W

/-- `stepEn`: the UPDATED divider is 0 (40_edge_ops.md R102; 70_reset_and_hazards.md R236). -/
def stepEn {W : Nat} (divider : BitVec W) : Bool := dividerNext divider == 0#W

/-- `trailOn = divider[T]` (41_pattern.md R141). -/
def trailOn {W : Nat} (T : Nat) (divider : BitVec W) : Bool := divider.getLsbD T

/-- The five cases of TICK (30_encoding.md R85). -/
inductive TickCase where
  | noStep
  | moveR
  | flipR
  | moveL
  | flipL
deriving DecidableEq, Repr

/-- The case of a TICK, chosen by the pre-edge state alone (R85; 70_reset_and_hazards.md R235). -/
def tickCase {W P : Nat} (N : Nat) (r : Regs W P) : TickCase :=
  match stepEn r.divider, r.direction with
  | false, _ => .noStep
  | true, .right => if atRightBoundary N r then .flipR else .moveR
  | true, .left => if atLeftBoundary r then .flipL else .moveL

/-- `direction` after a TICK: written in the flip cases only (40_edge_ops.md R104 to R108). -/
def directionNext (c : TickCase) (direction : Direction) : Direction :=
  match c with
  | .flipR => .left
  | .flipL => .right
  | .noStep => direction
  | .moveR => direction
  | .moveL => direction

end Sys2Proof.Machine
end

