-- ==== Sys2Proof/Machine/Ops.lean ====
section
/-! DEFINITION. The shared operations over the registers, the output vector and the ports. The block has
no memory (20_memory.md R60), so there are none over memory; it has no exceptions and no traps
(60_exceptions.md R200, R202), so there is no operation that takes one or returns from one. -/

namespace Sys2Proof.Machine

/-- `position` after a TICK: written in the move cases only (40_edge_ops.md R104 to R108). -/
def positionNext {P : Nat} (c : TickCase) (position : BitVec P) : BitVec P :=
  match c with
  | .moveR => position + 1#P
  | .moveL => position - 1#P
  | .noStep => position
  | .flipR => position
  | .flipL => position

/-- TICK's commit: every next value is computed from the pre-edge triple `r`, and all take effect
together (40_edge_ops.md R100; 20_memory.md R66, R69). -/
def tickRegs {W P : Nat} (N : Nat) (r : Regs W P) : Regs W P where
  divider := dividerNext r.divider
  position := positionNext (tickCase N r) r.position
  direction := directionNext (tickCase N r) r.direction

/-- RESET's commit: the initial state (40_edge_ops.md R113). -/
def resetRegs {W P : Nat} : Regs W P where
  divider := 0#W
  position := 0#P
  direction := .right

/-- The level of lane `i` with the head at `head` (41_pattern.md R140, R142 to R145). -/
def laneLevel (N head : Nat) (trail : Bool) (i : Nat) : Bool :=
  if i = head then true
  else if 0 < head ∧ i = head - 1 then trail
  else if head < N - 1 ∧ i = head + 1 then trail
  else false

/-- The `n`-bit vector whose bit `i` is `lane i` (`led[i]` is element `i`, 10_state.md R36). -/
def vectorOf (lane : Nat → Bool) : (n : Nat) → BitVec n
  | 0 => 0#0
  | n + 1 => BitVec.cons (lane n) (vectorOf lane n)

/-- PATTERN: the output vector as a function of the head and the trail phase (41_pattern.md R140);
`direction` is no operand (R146). -/
def pattern (N head : Nat) (trail : Bool) : BitVec N := vectorOf (laneLevel N head trail) N

/-- `led` of a block in the state `r`: PATTERN of the committed state (41_pattern.md R150;
20_memory.md R67). -/
def Regs.led {W P : Nat} (N T : Nat) (r : Regs W P) : BitVec N :=
  pattern N r.head (trailOn T r.divider)

/-- The output port `led` in the present cycle (10_state.md R31, R36). -/
def State.led (s : State) : BitVec Config.N := s.regs.led Config.N Config.T

/-- The state with the block's triple replaced as a whole, in one commit (20_memory.md R69). -/
def State.setRegs (s : State) (r : Regs Config.W Config.P) : State := { s with regs := r }

/-- The state after the environment has read the value `v` of `led` (60_exceptions.md R213; log 3). -/
def State.publish (s : State) (v : BitVec Config.N) : State :=
  { s with observed := v :: s.observed }

/-- The state in which `e` is the next stimulus (log 1). -/
def State.supply (s : State) (e : Stimulus) : State := { s with pending := e :: s.pending }

/-- The next stimulus and the state without it: the first one pending, or, where none is, an edge with
`rst` at its idle level (log 2). -/
def State.nextStimulus (s : State) : Stimulus × State :=
  match s.pending with
  | [] => (.edge Config.rstIdle, s)
  | e :: es => (e, { s with pending := es })

end Sys2Proof.Machine
end

