-- ==== Sys2Proof/Machine/Comb.lean ====
section
/-! DEFINITION. The combinational output function PATTERN (41_pattern.md) as the environment reads it. -/

namespace Sys2Proof.Machine

/-- PATTERN (41_pattern.md R140): the value of `led`, handed to the environment; it writes no register
of the block (R149). -/
def execPattern (s : State) : Host.Outcome State Fault Refusal :=
  .next (s.publish s.led)

end Sys2Proof.Machine
end

