-- ==== Sys2Proof/Machine/Edge.lean ====
section
/-! DEFINITION. The clock-edge operations (40_edge_ops.md): TICK and RESET at the normative instance. -/

namespace Sys2Proof.Machine

/-- TICK (40_edge_ops.md R100): total, raises nothing (R111), writes the triple and nothing else
(R110). -/
def execTick (s : State) : Host.Outcome State Fault Refusal :=
  .next (s.setRegs (tickRegs Config.N s.regs))

/-- RESET (40_edge_ops.md R113): the initial state, whatever the pre-edge state (R114). -/
def execReset (s : State) : Host.Outcome State Fault Refusal :=
  .next (s.setRegs resetRegs)

end Sys2Proof.Machine
end

