-- ==== Sys2Proof/Machine/Step.lean ====
section
/-! DEFINITION. One step: the next stimulus is taken and the operation it selects is performed
(30_encoding.md R82; 20_memory.md R68). -/

namespace Sys2Proof.Machine

/-- One step of the machine. A step that takes an edge is one ClockTick (10_state.md R34). -/
def step (s : State) : Host.Outcome State Fault Refusal :=
  exec (decodeStimulus s.nextStimulus.1) s.nextStimulus.2

/-- `s` with the word's stimulus made the next one, so that the next step performs it; a number that is
no word of the block leaves `s` as it is, since no port could carry it (log 5). -/
def State.withFetchWord (s : State) (nbits w : Nat) : State :=
  match stimulusOfWord nbits w with
  | .ok e => s.supply e
  | .error _ => s

end Sys2Proof.Machine
end

