-- ==== Sys2Proof/Machine/Construct.lean ====
section
/-! DEFINITION. Construction of a block from a parameter set and a start state, with the checks the spec
asks for (60_exceptions.md R205; 70_reset_and_hazards.md R230, R231, R234). -/

namespace Sys2Proof.Machine

/-- The least `k` from `k` on with `n <= 2^k`, looking at most `fuel` values ahead. -/
def leastWidthFrom : (fuel k n : Nat) → Nat
  | 0, k, _ => k
  | fuel + 1, k, n => if n ≤ 2 ^ k then k else leastWidthFrom fuel (k + 1) n

/-- `P`: the least integer with `P >= 1` and `2^P >= N` (00_scope.md R10). -/
def posWidth (N : Nat) : Nat := leastWidthFrom N 1 N

/-- The position width of a parameter set (R10). -/
def posWidthOf (p : Params) : Nat := posWidth p.N

/-- Why a block is not built: a construction bug, never a run-time error (60_exceptions.md R205). -/
inductive ConstructionError where
  /-- `W = 0`, against 00_scope.md R6. -/
  | dividerWidthZero
  /-- `N = 0`, against R7. -/
  | noLeds
  /-- `T > W-1`, against R8. -/
  | trailBitOutOfRange
  /-- `divider >= 2^W` (60_exceptions.md R205). -/
  | dividerOutOfRange
  /-- `position >= N` (R205). -/
  | positionOutOfRange
deriving DecidableEq, Repr

/-- Build a block with the parameters `p` in the state `(divider, position, direction)`, or refuse
(R205, R231). Which error is named when several checks fail is the model's choice (log 15). -/
def construct (p : Params) (divider position : Nat) (direction : Direction) :
    Except ConstructionError (Regs p.W (posWidthOf p)) :=
  if p.widthOk = false then .error .dividerWidthZero
  else if p.ledsOk = false then .error .noLeds
  else if p.trailOk = false then .error .trailBitOutOfRange
  else if p.dividerOk divider = false then .error .dividerOutOfRange
  else if p.positionOk position = false then .error .positionOutOfRange
  else .ok { divider := BitVec.ofNat _ divider, position := BitVec.ofNat _ position,
             direction := direction }

/-- Construction as the spec gives it: the block starts in the initial state (R230). -/
def constructInitial (p : Params) : Except ConstructionError (Regs p.W (posWidthOf p)) :=
  construct p 0 0 .right

end Sys2Proof.Machine
end

