-- ==== Sys2Proof/Machine/Trace.lean ====
section
/-! DEFINITION. Runs of the block at any parameters: the effect of a list of input words, the observation
of a run (60_exceptions.md R212), and the trace notation (30_encoding.md R86). -/

namespace Sys2Proof.Machine

/-- The effect on the registers of the edge whose input word is `iw`, at any parameters
(30_encoding.md R82). -/
def edgeRegs {W P : Nat} (N : Nat) (iw : InputWord) (r : Regs W P) : Regs W P :=
  match decodeEdge iw with
  | .tick => tickRegs N r
  | .reset => resetRegs
  | .pattern => r

/-- The registers after a list of edges. -/
def runWords {W P : Nat} (N : Nat) : List InputWord → Regs W P → Regs W P
  | [], r => r
  | iw :: ws, r => runWords N ws (edgeRegs N iw r)

/-- The observation of a run: after each edge, the state and the `led` value of the cycle that follows
(60_exceptions.md R212). -/
def observe {W P : Nat} (N T : Nat) :
    List InputWord → Regs W P → List (Regs W P × BitVec N)
  | [], _ => []
  | iw :: ws, r => (edgeRegs N iw r, (edgeRegs N iw r).led N T) :: observe N T ws (edgeRegs N iw r)

/-- A line of the trace notation (30_encoding.md R86). -/
inductive TraceLine where
  | tick
  | reset
  | tickTimes (n : Nat)
  | resetTimes (n : Nat)
  | start (divider position : Nat) (direction : Direction)
  | expect (divider position : Nat) (direction : Direction) (led : Nat)
deriving DecidableEq, Repr

/-- The input words of a line (R86). -/
def lineWords : TraceLine → List InputWord
  | .tick => [0#1]
  | .reset => [1#1]
  | .tickTimes n => List.replicate n 0#1
  | .resetTimes n => List.replicate n 1#1
  | .start _ _ _ => []
  | .expect _ _ _ _ => []

/-- The encoding of a trace: its list of input words, one per edge (R86). -/
def traceWords : List TraceLine → List InputWord
  | [] => []
  | l :: ls => lineWords l ++ traceWords ls

/-- Why a trace does not go through. -/
inductive TraceError where
  /-- A `START` names no legal block (60_exceptions.md R205). -/
  | construction (e : ConstructionError)
  /-- An `EXPECT` does not hold. -/
  | unexpected
deriving DecidableEq, Repr

/-- Whether an `EXPECT` line holds of a block (R86): its three registers and `led`, as numbers. -/
def expectHolds {W P : Nat} (N T divider position : Nat) (direction : Direction) (led : Nat)
    (r : Regs W P) : Bool :=
  r.divider.toNat == divider && r.position.toNat == position && r.direction == direction &&
    (r.led N T).toNat == led

/-- One line of a trace: `START` builds a block, `EXPECT` checks it, the others take edges (R86). -/
def runLine (p : Params) (l : TraceLine) (r : Regs p.W (posWidthOf p)) :
    Except TraceError (Regs p.W (posWidthOf p)) :=
  match l with
  | .tick => .ok (tickRegs p.N r)
  | .reset => .ok resetRegs
  | .tickTimes n => .ok ((tickRegs p.N)^[n] r)
  | .resetTimes n => .ok ((fun _ => resetRegs)^[n] r)
  | .start d q dir =>
    match construct p d q dir with
    | .ok r' => .ok r'
    | .error e => .error (.construction e)
  | .expect d q dir led =>
    if expectHolds p.N p.T d q dir led r then .ok r else .error .unexpected

/-- A trace, line by line. -/
def runTrace (p : Params) :
    List TraceLine → Regs p.W (posWidthOf p) → Except TraceError (Regs p.W (posWidthOf p))
  | [], r => .ok r
  | l :: ls, r =>
    match runLine p l r with
    | .ok r' => runTrace p ls r'
    | .error e => .error e

end Sys2Proof.Machine
end

