-- ==== Sys2Proof/Safety.lean ====
section
/-! DEFINITION. What claims speak of: legal states (10_state.md R25), runs that complete, and the output
patterns of the table (41_pattern.md R148). -/

namespace Sys2Proof.Safety

open Sys2Proof.Machine

/-- A legal state of a block with `N` LEDs: the head is an LED (10_state.md R25, R26). The other two
registers are legal at every value. -/
abbrev Legal {W P : Nat} (N : Nat) (r : Regs W P) : Prop := r.head < N

/-- `k` steps of the machine from `s` lead to `t`: none of them stops. -/
abbrev Runs (k : Nat) (s t : State) : Prop := Host.Core.run Sys2Proof.core k s = .next t

/-- The patterns of the table in 41_pattern.md R148, written out from it. -/
def tablePatterns : List (BitVec 8) :=
  [0x01, 0x02, 0x04, 0x08, 0x10, 0x20, 0x40, 0x80] ++
  [0x03, 0x07, 0x0E, 0x1C, 0x38, 0x70, 0xE0, 0xC0]

/-- The invariant of the output: every value the environment has read is a pattern of the table. -/
abbrev ObservedInTable (s : State) : Prop := ∀ v ∈ s.observed, v ∈ tablePatterns

/-- `n` edges with `rst = 0` (`TICK*n`, 30_encoding.md R86). -/
abbrev tickEdges (n : Nat) : List Stimulus := List.replicate n (.edge 0#1)

/-- `n` edges with `rst = 1` (`RESET*n`, R86). -/
abbrev resetEdges (n : Nat) : List Stimulus := List.replicate n (.edge 1#1)

/-- The condition column of the table of TICK's cases (30_encoding.md R85), in the table's words. -/
def caseCondition {W P : Nat} (N : Nat) (r : Regs W P) : TickCase → Prop
  | .noStep => stepEn r.divider = false
  | .moveR => stepEn r.divider = true ∧ r.direction = .right ∧ r.head ≠ N - 1
  | .flipR => stepEn r.divider = true ∧ r.direction = .right ∧ r.head = N - 1
  | .moveL => stepEn r.divider = true ∧ r.direction = .left ∧ r.head ≠ 0
  | .flipL => stepEn r.divider = true ∧ r.direction = .left ∧ r.head = 0

/-- How many of the first `t` TICKs from `r` are step events. -/
def stepEvents {W P : Nat} (N t : Nat) (r : Regs W P) : Nat :=
  (List.range t).countP fun i => stepEn ((tickRegs N)^[i] r).divider

/-- The position after `k` step events from `(0, Right)` (40_edge_ops.md R112). -/
def bouncePosition (N k : Nat) : Nat :=
  if k % (2 * N) < N then k % (2 * N) else 2 * N - 1 - k % (2 * N)

/-- The direction after `k` step events from `(0, Right)` (40_edge_ops.md R112). -/
def bounceDirection (N k : Nat) : Direction :=
  if k % (2 * N) < N then .right else .left

/-- The number of lit lanes of an output vector (41_pattern.md R152). -/
def litCount {N : Nat} (v : BitVec N) : Nat := (List.range N).countP fun i => v.getLsbD i

end Sys2Proof.Safety
end

