-- ==== Sys2Proof/Certificates/Slice0/Obligations.lean ====
section
/-! DEFINITION. The statements for the provers. Each docstring names the rule of spec/ it formalises; a
rule the spec itself marks derived or decided is said to be so. Wherever a statement takes stimuli from
`pending`, that list is the model's own (log 1), and a value read is an entry of `observed` (log 3). -/

open Sys2Proof Sys2Proof.Machine Sys2Proof.Safety

/-! ### TICK -/

/-- R101, R110, R111. TICK completes in every state, counts the divider up by one modulo `2^23` whether
or not a step fires, and changes nothing outside the triple; nothing but RESET writes the divider
otherwise. -/
def Obligations.TickCountsDividerModulo : Prop :=
  ∀ s : State,
    (∃ t, exec .tick s = .next t ∧
      t.regs.divider.toNat = (s.regs.divider.toNat + 1) % 2 ^ 23 ∧
      t.pending = s.pending ∧ t.observed = s.observed) ∧
    ∀ i, i ≠ .tick → i ≠ .reset → ∃ t, exec i s = .next t ∧ t.regs.divider = s.regs.divider

/-- R104 (NOSTEP). When the updated divider is not 0, TICK writes the divider and nothing else. -/
def Obligations.TickWithoutStepKeepsHead : Prop :=
  ∀ s : State, (s.regs.divider.toNat + 1) % 2 ^ 23 ≠ 0 →
    exec .tick s = .next { s with regs :=
      { divider := BitVec.ofNat 23 (s.regs.divider.toNat + 1),
        position := s.regs.position, direction := s.regs.direction } }

/-- R105 (MOVE_R). At a step toward Right away from the boundary the head moves up by one, without
wrapping; nothing else changes but the divider, which becomes 0. -/
def Obligations.TickMovesRight : Prop :=
  ∀ s : State, (s.regs.divider.toNat + 1) % 2 ^ 23 = 0 →
    s.regs.direction = .right → s.regs.position.toNat ≠ 7 →
    ∃ t, exec .tick s = .next t ∧ t.regs.position.toNat = s.regs.position.toNat + 1 ∧
      t.regs.divider.toNat = 0 ∧ t.regs.direction = .right ∧
      t.pending = s.pending ∧ t.observed = s.observed

/-- R106 (FLIP_R). At a step at the boundary 7 toward Right the direction becomes Left and the position
stays. -/
def Obligations.TickFlipsAtRightBoundary : Prop :=
  ∀ s : State, (s.regs.divider.toNat + 1) % 2 ^ 23 = 0 →
    s.regs.direction = .right → s.regs.position.toNat = 7 →
    ∃ t, exec .tick s = .next t ∧ t.regs.direction = .left ∧
      t.regs.divider.toNat = 0 ∧ t.regs.position.toNat = 7 ∧
      t.pending = s.pending ∧ t.observed = s.observed

/-- R107 (MOVE_L). At a step toward Left away from the boundary the head moves down by one, without
wrapping. -/
def Obligations.TickMovesLeft : Prop :=
  ∀ s : State, (s.regs.divider.toNat + 1) % 2 ^ 23 = 0 →
    s.regs.direction = .left → s.regs.position.toNat ≠ 0 →
    ∃ t, exec .tick s = .next t ∧ t.regs.position.toNat + 1 = s.regs.position.toNat ∧
      t.regs.divider.toNat = 0 ∧ t.regs.direction = .left ∧
      t.pending = s.pending ∧ t.observed = s.observed

/-- R108 (FLIP_L). At a step at the boundary 0 toward Left the direction becomes Right and the position
stays. -/
def Obligations.TickFlipsAtLeftBoundary : Prop :=
  ∀ s : State, (s.regs.divider.toNat + 1) % 2 ^ 23 = 0 →
    s.regs.direction = .left → s.regs.position.toNat = 0 →
    ∃ t, exec .tick s = .next t ∧ t.regs.direction = .right ∧
      t.regs.divider.toNat = 0 ∧ t.regs.position.toNat = 0 ∧
      t.pending = s.pending ∧ t.observed = s.observed

/-- R102. The step condition holds exactly when the UPDATED divider is 0, and a TICK changes the pair
(position, direction) exactly then; so the tick from divider 0 to 1 does not step. (The equivalent form
that the spec derives is `StepConditionIsAllOnes`.) -/
def Obligations.StepFiresExactlyWhenUpdatedDividerIsZero : Prop :=
  ∀ s : State, ∃ t, exec .tick s = .next t ∧
    (stepEn s.regs.divider = true ↔ t.regs.divider.toNat = 0) ∧
    (t.regs.divider.toNat = 0 ↔
      (t.regs.position, t.regs.direction) ≠ (s.regs.position, s.regs.direction)) ∧
    (s.regs.divider.toNat = 0 → t.regs.divider.toNat = 1 ∧ stepEn s.regs.divider = false)

/-- R109. At a step exactly one of {flip direction, move one position} happens; a flip happens only at
position 0 (Left to Right) or 7 (Right to Left), and then the position does not change. -/
def Obligations.OneActionPerStep : Prop :=
  ∀ s : State, (s.regs.divider.toNat + 1) % 2 ^ 23 = 0 →
    ∃ t, exec .tick s = .next t ∧
      (t.regs.direction ≠ s.regs.direction ↔
        ¬ (t.regs.position.toNat = s.regs.position.toNat + 1 ∨
          s.regs.position.toNat = t.regs.position.toNat + 1)) ∧
      (t.regs.direction ≠ s.regs.direction →
        t.regs.position = s.regs.position ∧
        (s.regs.direction = .left ∧ t.regs.direction = .right ∧ s.regs.position.toNat = 0 ∨
         s.regs.direction = .right ∧ t.regs.direction = .left ∧ s.regs.position.toNat = 7))

/-- R100 at every parameter set (00_scope.md R7, R10): TICK's pseudocode, in numbers, on every legal
state. At parameters other than the normative ones the spec calls the rules its own extension (D9), so
this is a derived statement. -/
def Obligations.TickFollowsPseudocodeAtAnyParameters : Prop :=
  ∀ (W P N : Nat) (r : Regs W P), 1 ≤ N → N ≤ 2 ^ P → Legal N r →
    let d := (r.divider.toNat + 1) % 2 ^ W
    (tickRegs N r).divider.toNat = d ∧
    ((tickRegs N r).position.toNat, (tickRegs N r).direction) =
      (if d = 0 then
        match r.direction with
        | .right =>
          if r.position.toNat = N - 1 then (r.position.toNat, .left)
          else (r.position.toNat + 1, .right)
        | .left =>
          if r.position.toNat = 0 then (r.position.toNat, .right)
          else (r.position.toNat - 1, .left)
      else (r.position.toNat, r.direction))

/-- R102, the equivalence the spec marks derived: the step condition is the carry out of the increment,
at every divider width. -/
def Obligations.StepConditionIsAllOnes : Prop :=
  ∀ (W : Nat) (d : BitVec W), stepEn d = true ↔ d.toNat = 2 ^ W - 1

/-- R85 (the spec's derived table): on every legal state exactly one of the five conditions holds, and it
is the condition of the case that TICK takes; at `N = 1` too. -/
def Obligations.TickCasesExclusiveAndExhaustive : Prop :=
  ∀ (W P N : Nat) (r : Regs W P), 1 ≤ N → Legal N r →
    caseCondition N r (tickCase N r) ∧ ∀ c, caseCondition N r c → c = tickCase N r

/-! ### RESET -/

/-- R113. RESET completes in every state, writes the initial state, and touches nothing outside the
block. The values are the source's; that the operation exists is the spec's decision D2 (log 7). -/
def Obligations.ResetWritesInitialState : Prop :=
  ∀ s : State, ∃ t, exec .reset s = .next t ∧
    t.regs.divider.toNat = 0 ∧ t.regs.position.toNat = 0 ∧ t.regs.direction = .right ∧
    t.pending = s.pending ∧ t.observed = s.observed

/-- R114 (the spec's decision D3, log 8): an edge with `rst = 1` performs RESET only, even when a step
is due. -/
def Obligations.ResetBeatsDueStep : Prop :=
  ∀ (s : State) (es : List Stimulus), s.pending = .edge 1#1 :: es →
    ∃ t, step s = .next t ∧ t.pending = es ∧ t.observed = s.observed ∧
      t.regs = { divider := 0#23, position := 0#3, direction := .right }

/-- R232 (the spec's derived rule): RESET held for `n >= 1` edges from any state, then `k` TICKs: below
`2^23` TICKs only the divider has counted, and the `2^23`-th TICK is the first step. -/
def Obligations.FirstStepComesAFullPeriodAfterReset : Prop :=
  ∀ (s : State) (n k : Nat) (es : List Stimulus), 1 ≤ n → k ≤ 2 ^ 23 →
    s.pending = resetEdges n ++ tickEdges k ++ es →
    ∃ t, Runs (n + k) s t ∧ t.pending = es ∧
      t.regs.divider.toNat = k % 2 ^ 23 ∧ t.regs.direction = .right ∧
      t.regs.position.toNat = if k = 2 ^ 23 then 1 else 0

/-- R233 (the spec's derived rule): after RESET `led` is `0x01` and stays so until the `2^21`-th TICK,
when the trail first rises. -/
def Obligations.LedAfterResetUntilTrailRises : Prop :=
  ∀ (s : State) (k : Nat) (es : List Stimulus), k ≤ 2 ^ 21 →
    s.pending = .edge 1#1 :: tickEdges k ++ es →
    ∃ t, Runs (1 + k) s t ∧ t.led = if k = 2 ^ 21 then 0x03#8 else 0x01#8

/-- R38. The state after reset: the registers are the source's initial state, and the spec derives the
three combinational values from them. The two environment fields are the model's own (log 1, log 3) and
not spoken of. -/
def Obligations.ResetStateValues : Prop :=
  State.reset.regs.divider = 0x000000#23 ∧ State.reset.regs.position = 0b000#3 ∧
    State.reset.regs.direction = .right ∧ State.reset.regs.direction.dirbit = 0#1 ∧
    stepEn State.reset.regs.divider = false ∧
    trailOn Config.T State.reset.regs.divider = false ∧ State.reset.led = 0x01#8

/-! ### PATTERN -/

/-- R140 to R145. PATTERN completes in every state, writes no register, and hands out a value whose head
lane is 1, whose neighbour lanes are `divider[21]` where they exist, and whose other lanes are 0. That
the value is handed out as an entry of `observed` is the model's choice (log 3), so this is a derived
statement. -/
def Obligations.PatternLanes : Prop :=
  ∀ s : State, ∃ (t : State) (v : BitVec 8), exec .pattern s = .next t ∧
    t.observed = v :: s.observed ∧ t.regs = s.regs ∧ t.pending = s.pending ∧
    v.getLsbD s.regs.position.toNat = true ∧
    (0 < s.regs.position.toNat →
      v.getLsbD (s.regs.position.toNat - 1) = s.regs.divider.getLsbD 21) ∧
    (s.regs.position.toNat < 7 →
      v.getLsbD (s.regs.position.toNat + 1) = s.regs.divider.getLsbD 21) ∧
    ∀ i, i < 8 → i ≠ s.regs.position.toNat → i + 1 ≠ s.regs.position.toNat →
      i ≠ s.regs.position.toNat + 1 → v.getLsbD i = false

/-- R149. PATTERN writes no state of the block, and evaluating it any number of times in one cycle gives
the same value each time. That the reads are pending stimuli and that each is recorded in `observed` are
the model's choices (log 1, log 3), so this is a derived statement. -/
def Obligations.PatternHasNoSideEffect : Prop :=
  ∀ (s : State) (n : Nat) (es : List Stimulus), s.pending = List.replicate n .readLed ++ es →
    Runs n s { regs := s.regs, pending := es, observed := List.replicate n s.led ++ s.observed }

/-- R146. The pattern depends on `position` and `trailOn` only: neither `direction` nor any other bit of
the divider nor what is pending reaches it. At position 0 there is no left neighbour, at 7 no right one,
and at the positions between both are present. How a read is recorded is the model's choice (log 3), so
this is a derived statement. -/
def Obligations.PatternDependsOnHeadAndTrailOnly : Prop :=
  ∀ s s' : State, s.regs.position = s'.regs.position →
    s.regs.divider.getLsbD 21 = s'.regs.divider.getLsbD 21 →
    ∃ (t t' : State) (v : BitVec 8), exec .pattern s = .next t ∧ exec .pattern s' = .next t' ∧
      t.observed = v :: s.observed ∧ t'.observed = v :: s'.observed ∧
      (s.regs.position.toNat = 0 → ∀ i, 2 ≤ i → v.getLsbD i = false) ∧
      (s.regs.position.toNat = 7 → ∀ i, i < 6 → v.getLsbD i = false) ∧
      (1 ≤ s.regs.position.toNat ∧ s.regs.position.toNat ≤ 6 →
        v.getLsbD (s.regs.position.toNat - 1) = trailOn Config.T s.regs.divider ∧
        v.getLsbD (s.regs.position.toNat + 1) = trailOn Config.T s.regs.divider)

/-- R148 (the spec's derived table), with the bit order of log 10: `led` at every position and trail
phase. -/
def Obligations.LedTable : Prop :=
  ∀ s : State, s.led =
    if s.regs.divider.getLsbD 21 then
      match s.regs.position.toNat with
      | 0 => 0x03#8 | 1 => 0x07#8 | 2 => 0x0E#8 | 3 => 0x1C#8
      | 4 => 0x38#8 | 5 => 0x70#8 | 6 => 0xE0#8 | _ => 0xC0#8
    else
      match s.regs.position.toNat with
      | 0 => 0x01#8 | 1 => 0x02#8 | 2 => 0x04#8 | 3 => 0x08#8
      | 4 => 0x10#8 | 5 => 0x20#8 | 6 => 0x40#8 | _ => 0x80#8

/-- R147 (the spec's derived form): the lane-by-lane pattern is the whole-vector form, for every number
of LEDs. -/
def Obligations.PatternIsWholeVectorForm : Prop :=
  ∀ (N head : Nat) (trail : Bool), head < N →
    pattern N head trail =
      onehot N head ||| (if trail then (onehot N head <<< 1) ||| (onehot N head >>> 1) else 0#N)

/-- R152 (the spec's derived count): how many lanes are lit, for every number of LEDs. -/
def Obligations.LitLaneCount : Prop :=
  ∀ N head : Nat, head < N →
    litCount (pattern N head false) = 1 ∧
    (3 ≤ N → litCount (pattern N head true) = if head = 0 ∨ head = N - 1 then 2 else 3) ∧
    (N = 2 → litCount (pattern N head true) = 2) ∧
    (N = 1 → litCount (pattern N head true) = 1)

/-- R150 (and the skew that R237 forbids). A read of `led` in the cycle after an edge gives PATTERN of
the state that the edge committed, at both levels of `rst`. That the edge and the read are pending
stimuli (log 1) and that the value read is the head of `observed` (log 3) are the model's choices, so
this is a derived statement; the operation of the edge is selected by the spec's decision D2 (log 7). -/
def Obligations.LedFollowsPostEdgeState : Prop :=
  ∀ (s : State) (iw : InputWord) (es : List Stimulus), s.pending = .edge iw :: .readLed :: es →
    ∃ u t, step s = .next u ∧ step u = .next t ∧ t.pending = es ∧
      t.regs = edgeRegs Config.N iw s.regs ∧ u.regs = t.regs ∧
      t.observed =
        pattern Config.N t.regs.position.toNat (t.regs.divider.getLsbD Config.T) :: s.observed

/-- R151 (the spec's derived timeline): the trail phase is the parity of `floor(divider / 2^T)`. -/
def Obligations.TrailPhaseIsParityOfQuotient : Prop :=
  ∀ (W T : Nat) (d : BitVec W), trailOn T d = true ↔ d.toNat / 2 ^ T % 2 = 1

/-- R151 (derived): over TICKs the trail phase is a square wave of 50% duty cycle. From a divider that is
a multiple of `2^T` it keeps its level for `2^T` cycles (so each high and each low lasts `2^T` ticks); it
is inverted after every `2^T` TICKs, and the same again after `2^(T+1)`, the period. -/
def Obligations.TrailIsSquareWave : Prop :=
  ∀ (W P N T : Nat) (r : Regs W P), T < W →
    (r.divider.toNat % 2 ^ T = 0 → ∀ j, j < 2 ^ T →
      trailOn T ((tickRegs N)^[j] r).divider = trailOn T r.divider) ∧
    trailOn T ((tickRegs N)^[2 ^ T] r).divider = !trailOn T r.divider ∧
    trailOn T ((tickRegs N)^[2 ^ (T + 1)] r).divider = trailOn T r.divider

/-- R151 (derived): the timeline within a step period of the normative instance. `k` TICKs after any
state with divider 0, the trail is on in the second and the fourth quarter of the period only. -/
def Obligations.TrailTimelineWithinStepPeriod : Prop :=
  ∀ (s : State) (k : Nat) (es : List Stimulus), s.regs.divider = 0#23 → k < 2 ^ 23 →
    s.pending = tickEdges k ++ es →
    ∃ t, Runs k s t ∧ (trailOn Config.T t.regs.divider = true ↔
      (2 ^ 21 ≤ k ∧ k < 2 ^ 22) ∨ (3 * 2 ^ 21 ≤ k ∧ k < 2 ^ 23))

/-! ### Selection, decoding and the step -/

/-- R82 (the spec's decision D2, log 7): the edge taken next performs RESET when `rst` is sampled 1 and
TICK when it is sampled 0, and nothing else; no input word selects PATTERN (R83) or stops the block
(R84). -/
def Obligations.EdgeOperationSelectedByRst : Prop :=
  ∀ (s : State) (iw : InputWord) (es : List Stimulus), s.pending = .edge iw :: es →
    ∃ t, step s = .next t ∧ t.pending = es ∧ t.observed = s.observed ∧
      t.regs = if iw.getLsbD 0 then resetRegs else tickRegs Config.N s.regs

/-- The rows of the opcode table, their words written out: IW = 0 is TICK, IW = 1 is RESET, the row
without bits is PATTERN (log 4), and a number wider than the input word is refused (log 5). -/
def Obligations.TableWordsDecode : Prop :=
  decodeTableWord 8 0b0 = some .tick ∧ decodeTableWord 8 0b1 = some .reset ∧
    decodeTableWord 0 0 = some .pattern ∧
    decodeWord 8 0b10 = .error .bitsOutsideInputWord

/-- Decoding an encoded instruction gives it back, and encoding what a stimulus performs gives the
stimulus back: each word has one meaning. For TICK and RESET the words are those of R82 (the spec's
decision D2, log 7). For PATTERN, to which R83 and R140 give no encoding, the word of no bits and the
read as its stimulus are the model's choice (log 4). -/
def Obligations.DecodeEncodeAgree : Prop :=
  (∀ i : Instr, decodeStimulus (encode i) = i ∧
    decodeTableWord (encodeWord i).1 (encodeWord i).2 = some i) ∧
  ∀ e : Stimulus, encode (decodeStimulus e) = e

/-- Which numbers the decoder reads, and as what (log 4, log 5 are the model's choices). -/
def Obligations.TableWordDecodedExactly : Prop :=
  ∀ (nbits w : Nat) (i : Instr), decodeTableWord nbits w = some i ↔
    (nbits = 0 ∧ w = 0 ∧ i = .pattern) ∨
    (nbits ≠ 0 ∧ w = 0 ∧ i = .tick) ∨ (nbits ≠ 0 ∧ w = 1 ∧ i = .reset)

/-- R83, R86 (the spec's decision D12): the encoding of a program is its list of input words, one per
edge, and decoding it gives the program back, less the PATTERN rows, which a decoder of edges skips
(PATTERN's stimulus, a read, is the model's choice, log 4). -/
def Obligations.ProgramRoundTrip : Prop :=
  ∀ is : List Instr,
    (inputWords (is.map encode)).map decodeEdge = is.filter fun i => i ≠ .pattern

/-- A step performs the operation that the next pending stimulus selects, and consumes that stimulus
only (30_encoding.md R82; 20_memory.md R68). The list of stimuli is the model's own (log 1). -/
def Obligations.StepRunsSelectedOperation : Prop :=
  ∀ (s : State) (i : Instr) (es : List Stimulus), s.pending = encode i :: es →
    step s = exec i { s with pending := es }

/-- The model's choice of log 2: with no stimulus pending a step is an edge with `rst` at 0, which
10_state.md R35 calls "the source's machine exactly". -/
def Obligations.IdleStepIsTick : Prop :=
  ∀ s : State, s.pending = [] → step s = exec .tick s

/-- The model's choice of log 4, how a program comes to run: supplying a word of the table makes the very
next step run its instruction, on the state as it was. The spec has no stored program (R3, R71). -/
def Obligations.SuppliedWordRunsNext : Prop :=
  ∀ (s : State) (nbits w : Nat) (i : Instr), decodeTableWord nbits w = some i →
    step (s.withFetchWord nbits w) = exec i s

/-! ### Whole-machine rules -/

/-- R211. The block never halts: from every state any number of steps completes, and the first of them
perform the pending stimuli in their order, each consumed by its step and each edge having the effect
of its input word. That the inputs are pending stimuli, and that a step with none pending is an edge
with `rst` at 0, are the model's choices (log 1, log 2), so this is a derived statement. -/
def Obligations.MachineNeverHalts : Prop :=
  (∀ (k : Nat) (s : State), ∃ t, Runs k s t) ∧
  ∀ (k : Nat) (s : State), k ≤ s.pending.length →
    ∃ t, Runs k s t ∧ t.pending = s.pending.drop k ∧
      t.regs = runWords Config.N (inputWords (s.pending.take k)) s.regs

/-- 10_state.md section 1 (R21 to R23, who writes each register), over all instructions: the divider
changes by TICK or RESET only, the position by RESET or a move case of TICK only, the direction by RESET
or a flip case of TICK only. -/
def Obligations.OnlyTheNamedOperationsWriteEachRegister : Prop :=
  ∀ (i : Instr) (s : State), ∃ t, exec i s = .next t ∧
    (t.regs.divider ≠ s.regs.divider → i = .tick ∨ i = .reset) ∧
    (t.regs.position ≠ s.regs.position → i = .reset ∨
      (i = .tick ∧ (tickCase Config.N s.regs = .moveR ∨ tickCase Config.N s.regs = .moveL))) ∧
    (t.regs.direction ≠ s.regs.direction → i = .reset ∨
      (i = .tick ∧ (tickCase Config.N s.regs = .flipR ∨ tickCase Config.N s.regs = .flipL))) ∧
    (i ≠ .pattern → t.observed = s.observed) ∧ t.pending = s.pending

/-- R26 (the spec's derived invariant), at every parameter set: whatever the edges, no run leaves the
legal positions. -/
def Obligations.LegalPositionInEveryRun : Prop :=
  ∀ (W P N : Nat) (ws : List InputWord) (r : Regs W P), 1 ≤ N → N ≤ 2 ^ P → Legal N r →
    Legal N (runWords N ws r)

/-- Every step keeps the invariant that each value of `led` the environment has read is a pattern of the
table of R148 (the spec's derived table; the record of reads is the model's own, log 3). -/
def Obligations.StepKeepsObservedInTable : Prop :=
  ∀ s t : State, ObservedInTable s → step s = .next t → ObservedInTable t

/-- The invariant of `StepKeepsObservedInTable` holds after reset (where nothing has been read, log 3). -/
def Obligations.ResetObservedInTable : Prop := ObservedInTable State.reset

/-- R117 (derived): the machine refines the pure function of the start state and the input words. Running
through the pending stimuli gives the registers that the words of the edges give, whatever was read. The
list of stimuli and the record of reads are the model's own (log 1, log 3). -/
def Obligations.MachineRefinesInputWords : Prop :=
  ∀ (es rest : List Stimulus) (s : State), s.pending = es ++ rest →
    ∃ t, Runs es.length s t ∧ t.pending = rest ∧
      t.regs = runWords Config.N (inputWords es) s.regs ∧
      t.observed.length = s.observed.length + (es.length - (inputWords es).length)

/-- R213: reading `led`, any number of times and in any cycle, has no effect on the block: leaving every
read out of the stimuli gives the same registers (the spec's decision D11; the list of stimuli and the
record of reads are the model's own, log 1 and log 3). -/
def Obligations.ReadsDoNotDisturbTheBlock : Prop :=
  ∀ (es : List Stimulus) (s : State),
    ∃ t t', Runs es.length { s with pending := es } t ∧
      Runs (es.filter fun e => e ≠ .readLed).length
        { s with pending := es.filter fun e => e ≠ .readLed } t' ∧
      t.regs = t'.regs ∧ t.led = t'.led ∧ t'.observed = s.observed

/-- R212 (the spec's decision D15, log 16): the observation of a run has one entry per edge, the state
after that edge and PATTERN of it. -/
def Obligations.ObservationHasOneEntryPerEdge : Prop :=
  ∀ (W P N T : Nat) (ws : List InputWord) (r : Regs W P),
    (observe N T ws r).length = ws.length ∧
    ∀ k, k < ws.length → (observe N T ws r)[k]? =
      some (runWords N (ws.take (k + 1)) r, (runWords N (ws.take (k + 1)) r).led N T)

/-! ### Runs of TICKs -/

/-- R103 (the spec's derived cadence): from `divider = d0` the `n`-th TICK steps exactly when
`n = 2^W - d0 + m * 2^W` for some `m`, and after a step the divider is 0. -/
def Obligations.StepCadence : Prop :=
  ∀ (W P N : Nat) (r : Regs W P) (n : Nat), 1 ≤ n →
    (stepEn ((tickRegs N)^[n - 1] r).divider = true ↔
      ∃ m, n = 2 ^ W - r.divider.toNat + m * 2 ^ W) ∧
    (stepEn ((tickRegs N)^[n - 1] r).divider = true →
      ((tickRegs N)^[n] r).divider.toNat = 0)

/-- R112 (the spec's derived rule, with 90_conflicts.md C1): the bounce sequence. From (0, Right) at any
divider value, after any number of TICKs, the pair (position, direction) is the one that the number of
step events among them gives. -/
def Obligations.BounceSequence : Prop :=
  ∀ (W P N t : Nat) (r : Regs W P), 1 ≤ N → N ≤ 2 ^ P →
    r.position.toNat = 0 → r.direction = .right →
    ((tickRegs N)^[t] r).position.toNat = bouncePosition N (stepEvents N t r) ∧
    ((tickRegs N)^[t] r).direction = bounceDirection N (stepEvents N t r)

/-- 90_conflicts.md C1 on the machine: from `(0, 0, Right)`, 14 step events lead to `(1, Left)`, 15 to
`(0, Left)`, 16 back to the start. -/
def Obligations.BounceReturnsAfterSixteenSteps : Prop :=
  ∀ (s : State) (k : Nat) (es : List Stimulus),
    s.regs = { divider := 0#23, position := 0#3, direction := .right } →
    s.pending = tickEdges (k * 2 ^ 23) ++ es →
    ∃ t, Runs (k * 2 ^ 23) s t ∧ t.pending = es ∧ t.observed = s.observed ∧
      (k = 14 → t.regs = { divider := 0#23, position := 1#3, direction := .left }) ∧
      (k = 15 → t.regs = { divider := 0#23, position := 0#3, direction := .left }) ∧
      (k = 16 → t.regs = s.regs)

/-- R115, second sentence (derived): the closed form of a run of TICKs from the initial state. -/
def Obligations.TickRunClosedForm : Prop :=
  ∀ (s : State) (n : Nat) (es : List Stimulus),
    s.regs = { divider := 0#23, position := 0#3, direction := .right } →
    s.pending = tickEdges n ++ es →
    ∃ t, Runs n s t ∧ t.pending = es ∧ t.observed = s.observed ∧
      t.regs.divider.toNat = n % 2 ^ 23 ∧
      t.regs.position.toNat = bouncePosition 8 (n / 2 ^ 23) ∧
      t.regs.direction = bounceDirection 8 (n / 2 ^ 23)

/-- R115, first sentence (derived): TICK runs through all `2N * 2^W` legal states in one cycle. Every
legal state is reached from every other, the state returns after exactly `2N * 2^W` TICKs and not
before. -/
def Obligations.TicksAreOneCycleThroughLegalStates : Prop :=
  ∀ (W P N : Nat) (r : Regs W P), 1 ≤ N → N ≤ 2 ^ P → Legal N r →
    (tickRegs N)^[2 * N * 2 ^ W] r = r ∧
    (∀ t, 0 < t → t < 2 * N * 2 ^ W → (tickRegs N)^[t] r ≠ r) ∧
    ∀ r' : Regs W P, Legal N r' → ∃ t, t < 2 * N * 2 ^ W ∧ (tickRegs N)^[t] r = r'

/-- R116 (derived): with one LED every step is a flip; the direction alternates every `2^W` TICKs and the
position never changes. -/
def Obligations.SingleLedAlternates : Prop :=
  ∀ (W P t : Nat) (r : Regs W P), r.position.toNat = 0 →
    ((tickRegs 1)^[t] r).position.toNat = 0 ∧
    (((tickRegs 1)^[t] r).direction = r.direction ↔ (r.divider.toNat + t) / 2 ^ W % 2 = 0)

/-! ### Construction, parameters and traces -/

/-- R10 (the spec's decision D9): the position width is the least `P >= 1` with `2^P >= N`, and the
normative instance has it. -/
def Obligations.PositionWidthIsLeast : Prop :=
  (∀ N : Nat, 1 ≤ posWidth N ∧ N ≤ 2 ^ posWidth N ∧
    ∀ Q, 1 ≤ Q → N ≤ 2 ^ Q → posWidth N ≤ Q) ∧ posWidth Config.N = Config.P

/-- R205, R234 (the spec's decision D14, log 15): construction succeeds exactly on legal parameters and
a legal start state, and then builds that state. -/
def Obligations.ConstructionRefusesExactlyIllegal : Prop :=
  ∀ (p : Params) (d q : Nat) (dir : Direction) (r : Regs p.W (posWidthOf p)),
    construct p d q dir = .ok r ↔
      (1 ≤ p.W ∧ 1 ≤ p.N ∧ p.T < p.W ∧ d < 2 ^ p.W ∧ q < p.N) ∧
      r.divider.toNat = d ∧ r.position.toNat = q ∧ r.direction = dir

/-- R86 (the spec's decision D12): a trace of edges runs as its encoding, the list of its input words,
says, at every parameter set. -/
def Obligations.TraceRunsAsItsEncoding : Prop :=
  ∀ (p : Params) (ls : List TraceLine) (r : Regs p.W (posWidthOf p)),
    (∀ l ∈ ls, (∀ d q dir, l ≠ .start d q dir) ∧ ∀ d q dir x, l ≠ .expect d q dir x) →
    runTrace p ls r = .ok (runWords p.N (traceWords ls) r)
end

