-- ==== Sys2Proof/Laws/Construct.lean ====
section
/-! SUPPORT. What construction and the position width do. -/

namespace Sys2Proof.Machine

/-- The search for the width stops at a width that is large enough, and passes over no smaller one. -/
theorem leastWidthFrom_spec (fuel k n : Nat) (h : n ≤ 2 ^ (k + fuel)) :
    k ≤ leastWidthFrom fuel k n ∧ n ≤ 2 ^ leastWidthFrom fuel k n ∧
      ∀ q, k ≤ q → n ≤ 2 ^ q → leastWidthFrom fuel k n ≤ q := by
  induction fuel generalizing k with
  | zero => exact ⟨le_refl _, h, fun q hq _ => hq⟩
  | succ fuel ih =>
    rw [leastWidthFrom]
    split
    next hk => exact ⟨le_refl _, hk, fun q hq _ => hq⟩
    next hk =>
      obtain ⟨h1, h2, h3⟩ := ih (k + 1) (by rwa [show k + 1 + fuel = k + (fuel + 1) by omega])
      refine ⟨by omega, h2, fun q hq hn => h3 q ?_ hn⟩
      rcases Nat.lt_or_ge k q with h' | h'
      · omega
      · have : q = k := by omega
        exact absurd (this ▸ hn) hk

/-- Construction succeeds only on legal parameters and a legal start state, and builds that state. -/
theorem construct_ok {p : Params} {d q : Nat} {dir : Direction} {r : Regs p.W (posWidthOf p)}
    (h : construct p d q dir = .ok r) :
    (1 ≤ p.W ∧ 1 ≤ p.N ∧ p.T < p.W ∧ d < 2 ^ p.W ∧ q < p.N) ∧
      r = { divider := BitVec.ofNat _ d, position := BitVec.ofNat _ q, direction := dir } := by
  unfold construct at h
  simp only [Params.widthOk, Params.ledsOk, Params.trailOk, Params.dividerOk, Params.positionOk,
    decide_eq_false_iff_not] at h
  split at h
  · cases h
  split at h
  · cases h
  split at h
  · cases h
  split at h
  · cases h
  split at h
  · cases h
  cases h
  exact ⟨⟨by omega, by omega, by omega, by omega, by omega⟩, rfl⟩

end Sys2Proof.Machine
end

