-- ==== Sys2Proof/Laws/Ops.lean ====
section
/-! SUPPORT. One specification lemma per shared operation; proofs cite these and do not unfold the
operations. -/

namespace Sys2Proof.Machine

variable {W P : Nat}

/-- The direction survives its one-bit encoding (10_state.md R24). -/
theorem Direction.ofDirbit_dirbit (d : Direction) : Direction.ofDirbit d.dirbit = d := by
  cases d <;> rfl

theorem dividerNext_toNat (d : BitVec W) : (dividerNext d).toNat = (d.toNat + 1) % 2 ^ W := by
  simp [dividerNext, BitVec.toNat_add]

/-- The step condition in numbers: the updated divider is 0 (40_edge_ops.md R102). -/
theorem stepEn_eq_true (d : BitVec W) : stepEn d = true ↔ (d.toNat + 1) % 2 ^ W = 0 := by
  rw [← dividerNext_toNat, stepEn, beq_iff_eq, ← BitVec.toNat_inj]
  simp

theorem stepEn_eq_false (d : BitVec W) : stepEn d = false ↔ (d.toNat + 1) % 2 ^ W ≠ 0 := by
  rw [← Bool.not_eq_true, stepEn_eq_true]

/-- Everything one TICK can do to the registers: one of its five cases, with the condition of the case
and the whole next triple (30_encoding.md R85; 40_edge_ops.md R104 to R108). -/
theorem tickRegs_cases (N : Nat) (r : Regs W P) :
    (stepEn r.divider = false ∧ tickCase N r = .noStep ∧
      tickRegs N r = ⟨dividerNext r.divider, r.position, r.direction⟩) ∨
    (stepEn r.divider = true ∧ r.direction = .right ∧ r.head ≠ N - 1 ∧ tickCase N r = .moveR ∧
      tickRegs N r = ⟨dividerNext r.divider, r.position + 1#P, .right⟩) ∨
    (stepEn r.divider = true ∧ r.direction = .right ∧ r.head = N - 1 ∧ tickCase N r = .flipR ∧
      tickRegs N r = ⟨dividerNext r.divider, r.position, .left⟩) ∨
    (stepEn r.divider = true ∧ r.direction = .left ∧ r.head ≠ 0 ∧ tickCase N r = .moveL ∧
      tickRegs N r = ⟨dividerNext r.divider, r.position - 1#P, .left⟩) ∨
    (stepEn r.divider = true ∧ r.direction = .left ∧ r.head = 0 ∧ tickCase N r = .flipL ∧
      tickRegs N r = ⟨dividerNext r.divider, r.position, .right⟩) := by
  obtain ⟨d, p, q⟩ := r
  by_cases hs : stepEn d = true
  · cases q
    · by_cases hb : (⟨d, p, .right⟩ : Regs W P).head = N - 1
      · simp [tickRegs, tickCase, atRightBoundary, hs, hb, directionNext, positionNext]
      · simp [tickRegs, tickCase, atRightBoundary, hs, hb, directionNext, positionNext]
    · by_cases hb : (⟨d, p, .left⟩ : Regs W P).head = 0
      · simp [tickRegs, tickCase, atLeftBoundary, hs, hb, directionNext, positionNext]
      · simp [tickRegs, tickCase, atLeftBoundary, hs, hb, directionNext, positionNext]
  · have hf : stepEn d = false := by simpa using hs
    simp [tickRegs, tickCase, hf, directionNext, positionNext]

theorem tickRegs_divider (N : Nat) (r : Regs W P) :
    (tickRegs N r).divider = dividerNext r.divider := rfl

/-- The divider counts every TICK (40_edge_ops.md R101). -/
theorem tickRegs_iterate_divider (N n : Nat) (r : Regs W P) :
    ((tickRegs N)^[n] r).divider.toNat = (r.divider.toNat + n) % 2 ^ W := by
  induction n with
  | zero => exact (Nat.mod_eq_of_lt r.divider.isLt).symm
  | succ n ih =>
    rw [Function.iterate_succ_apply', tickRegs_divider, dividerNext_toNat, ih, Nat.mod_add_mod,
      Nat.add_assoc]

/-- Bit `i` of `onehot_N(p)` (00_scope.md R12). -/
theorem onehot_getLsbD (N p i : Nat) :
    (onehot N p).getLsbD i = (decide (i < N) && decide (i = p)) := by
  rw [onehot, BitVec.getLsbD_shiftLeft]
  rcases Nat.lt_trichotomy i p with h | h | h
  · simp [h, Nat.ne_of_lt h]
  · subst h; simp; omega
  · have h0 : i - p ≠ 0 := by omega
    have h1 : i ≠ p := by omega
    simp [h0, h1, BitVec.getLsbD_one]

/-- Bit `i` of the vector of the lanes is lane `i` (10_state.md R36). -/
theorem vectorOf_getLsbD (lane : Nat → Bool) (n i : Nat) :
    (vectorOf lane n).getLsbD i = (decide (i < n) && lane i) := by
  induction n with
  | zero => simp
  | succ n ih =>
    rw [vectorOf, BitVec.getLsbD_cons, ih]
    by_cases h : i = n
    · subst h; simp
    · have : (i < n + 1) ↔ (i < n) := by omega
      simp [h, this]

/-- Each lane of PATTERN (41_pattern.md R140). -/
theorem pattern_getLsbD (N head : Nat) (trail : Bool) (i : Nat) :
    (pattern N head trail).getLsbD i = (decide (i < N) && laneLevel N head trail i) :=
  vectorOf_getLsbD _ _ _

/-- The head lane is lit (R142). -/
theorem laneLevel_head (N head : Nat) (trail : Bool) : laneLevel N head trail head = true := by
  simp [laneLevel]

/-- The lane left of the head (R143). -/
theorem laneLevel_left (N head : Nat) (trail : Bool) (h : 0 < head) :
    laneLevel N head trail (head - 1) = trail := by
  have : head - 1 ≠ head := by omega
  simp [laneLevel, this, h]

/-- The lane right of the head (R144). -/
theorem laneLevel_right (N head : Nat) (trail : Bool) (h : head < N - 1) :
    laneLevel N head trail (head + 1) = trail := by
  have : head + 1 ≠ head - 1 := by omega
  simp [laneLevel, this, h]

/-- Every other lane is off (R145). -/
theorem laneLevel_other (N head : Nat) (trail : Bool) (i : Nat) (h : i ≠ head)
    (hl : i + 1 ≠ head) (hr : i ≠ head + 1) : laneLevel N head trail i = false := by
  have h1 : ¬ (0 < head ∧ i = head - 1) := by omega
  have h2 : ¬ (head < N - 1 ∧ i = head + 1) := by omega
  simp [laneLevel, h, h1, h2]

end Sys2Proof.Machine
end

