-- ==== Sys2Proof/Laws/PerInstr.lean ====
section
/-! SUPPORT. What holds of every instruction as syntax, one lemma per constructor. -/

namespace Sys2Proof.Laws.RoundTrip

/-- The instruction is well formed, and the stimulus that encodes it selects it and no other. -/
def Statement (i : Instr) : Prop := i.wf = true ∧ ∀ j, decodeStimulus (encode i) = j ↔ j = i

theorem tick : Statement .tick := ⟨rfl, fun j => by cases j <;> simp [encode, decodeStimulus, decodeEdge]⟩
theorem reset : Statement .reset := ⟨rfl, fun j => by cases j <;> simp [encode, decodeStimulus, decodeEdge]⟩
theorem pattern : Statement .pattern := ⟨rfl, fun j => by cases j <;> simp [encode, decodeStimulus]⟩

end Sys2Proof.Laws.RoundTrip
end

