-- ==== Sys2Proof/Laws/State.lean ====
section
/-! SUPPORT. One lemma per field and update of State, and the two cases of taking a stimulus. -/

namespace Sys2Proof.Machine

@[simp] theorem State.setRegs_regs (s : State) (r : Regs Config.W Config.P) :
    (s.setRegs r).regs = r := rfl
@[simp] theorem State.setRegs_pending (s : State) (r : Regs Config.W Config.P) :
    (s.setRegs r).pending = s.pending := rfl
@[simp] theorem State.setRegs_observed (s : State) (r : Regs Config.W Config.P) :
    (s.setRegs r).observed = s.observed := rfl

@[simp] theorem State.publish_regs (s : State) (v : BitVec Config.N) :
    (s.publish v).regs = s.regs := rfl
@[simp] theorem State.publish_pending (s : State) (v : BitVec Config.N) :
    (s.publish v).pending = s.pending := rfl
@[simp] theorem State.publish_observed (s : State) (v : BitVec Config.N) :
    (s.publish v).observed = v :: s.observed := rfl

@[simp] theorem State.supply_regs (s : State) (e : Stimulus) : (s.supply e).regs = s.regs := rfl
@[simp] theorem State.supply_pending (s : State) (e : Stimulus) :
    (s.supply e).pending = e :: s.pending := rfl
@[simp] theorem State.supply_observed (s : State) (e : Stimulus) :
    (s.supply e).observed = s.observed := rfl

/-- Taking the stimulus just supplied gives it back and leaves the state as it was. -/
theorem State.nextStimulus_supply (s : State) (e : Stimulus) :
    (s.supply e).nextStimulus = (e, s) := rfl

/-- With a stimulus pending, the first one is taken. -/
theorem State.nextStimulus_cons (s : State) (e : Stimulus) (es : List Stimulus)
    (h : s.pending = e :: es) : s.nextStimulus = (e, { s with pending := es }) := by
  simp [State.nextStimulus, h]

/-- With none pending, the edge is taken at the idle level of `rst` (log 2). -/
theorem State.nextStimulus_nil (s : State) (h : s.pending = []) :
    s.nextStimulus = (.edge Config.rstIdle, s) := by
  simp [State.nextStimulus, h]

end Sys2Proof.Machine
end

