-- ==== Sys2Proof/Laws/Step.lean ====
section
/-! SUPPORT. What the decoder reads, what exec answers, what one step does and how runs compose. -/

namespace Sys2Proof

/-- The operation of an edge, by the level of `rst` (30_encoding.md R82). -/
theorem decodeEdge_zero : decodeEdge 0#1 = .tick := rfl
theorem decodeEdge_one : decodeEdge 1#1 = .reset := rfl

/-- What a word can be: the empty word, or one bit in a container (log 4, log 5). -/
theorem stimulusOfWord_ok {nbits w : Nat} {e : Stimulus} (h : stimulusOfWord nbits w = .ok e) :
    (nbits = 0 ∧ w = 0 ∧ e = .readLed) ∨ (nbits ≠ 0 ∧ w = 0 ∧ e = .edge 0#1) ∨
      (nbits ≠ 0 ∧ w = 1 ∧ e = .edge 1#1) := by
  unfold stimulusOfWord at h
  split at h <;> split at h
  · simp_all
  · cases h
  · obtain ⟨rfl⟩ | ⟨rfl⟩ : w = 0 ∨ w = 1 := by omega
    all_goals simp_all
  · cases h

namespace Machine

theorem exec_tick (s : State) : exec .tick s = .next (s.setRegs (tickRegs Config.N s.regs)) := rfl
theorem exec_reset (s : State) : exec .reset s = .next (s.setRegs resetRegs) := rfl
theorem exec_pattern (s : State) : exec .pattern s = .next (s.publish s.led) := rfl

/-- Everything an instruction can do. -/
theorem exec_cases {i : Instr} {s t : State} (h : exec i s = .next t) :
    (i = .tick ∧ t = s.setRegs (tickRegs Config.N s.regs)) ∨
      (i = .reset ∧ t = s.setRegs resetRegs) ∨ (i = .pattern ∧ t = s.publish s.led) := by
  cases i <;> cases h <;> simp

/-- Every instruction answers a next state. -/
theorem exec_completes (i : Instr) (s : State) : ∃ t, exec i s = .next t := by
  cases i <;> exact ⟨_, rfl⟩

/-- One step with a stimulus pending. -/
theorem step_cons (s : State) (e : Stimulus) (es : List Stimulus) (h : s.pending = e :: es) :
    step s = exec (decodeStimulus e) { s with pending := es } := by
  rw [step, s.nextStimulus_cons e es h]

/-- Every step answers a next state (40_edge_ops.md R111, 60_exceptions.md R211). -/
theorem step_completes (s : State) : ∃ t, step s = .next t := exec_completes _ _

/-- Taking a stimulus changes neither the block nor what has been read. -/
theorem nextStimulus_regs (s : State) : s.nextStimulus.2.regs = s.regs := by
  unfold State.nextStimulus; split <;> rfl
theorem nextStimulus_observed (s : State) : s.nextStimulus.2.observed = s.observed := by
  unfold State.nextStimulus; split <;> rfl

/-- Everything a step can do to the block and to what has been read: TICK, RESET or a read of `led`. -/
theorem step_cases {s t : State} (h : step s = .next t) :
    (t.regs = tickRegs Config.N s.regs ∧ t.observed = s.observed) ∨
      (t.regs = resetRegs ∧ t.observed = s.observed) ∨
      (t.regs = s.regs ∧ t.observed = s.led :: s.observed) := by
  rcases exec_cases h with ⟨-, rfl⟩ | ⟨-, rfl⟩ | ⟨-, rfl⟩
  · exact .inl ⟨by rw [State.setRegs_regs, nextStimulus_regs], nextStimulus_observed s⟩
  · exact .inr (.inl ⟨rfl, nextStimulus_observed s⟩)
  · refine .inr (.inr ⟨nextStimulus_regs s, ?_⟩)
    rw [State.publish_observed, nextStimulus_observed, State.led, nextStimulus_regs, State.led]

/-- A run of `k` steps from where one step leads. -/
theorem run_succ {s u : State} (k : Nat) (h : step s = .next u) :
    Host.Core.run core (k + 1) s = Host.Core.run core k u := by
  simp only [Host.Core.run, core, h]

/-- Runs compose. -/
theorem run_add {s u : State} (j k : Nat) (h : Host.Core.run core j s = .next u) :
    Host.Core.run core (j + k) s = Host.Core.run core k u := by
  induction j generalizing s with
  | zero => cases h; simp
  | succ j ih =>
    rw [show j + 1 + k = (j + k) + 1 by omega]
    cases hs : step s with
    | next v =>
      rw [run_succ _ hs] at h ⊢
      exact ih h
    | fault r => simp [Host.Core.run, core, hs] at h
    | refused r => simp [Host.Core.run, core, hs] at h

end Machine
end Sys2Proof
end

