-- ==== Sys2Proof/Laws/Trace.lean ====
section
/-! SUPPORT. How runs over lists of input words compose. -/

namespace Sys2Proof.Machine

variable {W P : Nat}

theorem runWords_append (N : Nat) (us vs : List InputWord) (r : Regs W P) :
    runWords N (us ++ vs) r = runWords N vs (runWords N us r) := by
  induction us generalizing r with
  | nil => rfl
  | cons u us ih => exact ih _

/-- `TICK*n` is the `n`-fold TICK. -/
theorem runWords_ticks (N n : Nat) (r : Regs W P) :
    runWords N (List.replicate n 0#1) r = (tickRegs N)^[n] r := by
  induction n generalizing r with
  | zero => rfl
  | succ n ih => exact ih _

/-- The edge operation of each input word. -/
theorem edgeRegs_zero (N : Nat) (r : Regs W P) : edgeRegs N 0#1 r = tickRegs N r := rfl
theorem edgeRegs_one (N : Nat) (r : Regs W P) : edgeRegs N 1#1 r = resetRegs := rfl

end Sys2Proof.Machine
end

