-- ==== Sys2Proof/Tests/Slice0.lean ====
section
/-! SUPPORT. Tests: expected results are from spec/95_test_vectors.md and the rules they cite; then one
witness for each statement that has hypotheses. -/

namespace Sys2Proof.Tests

open Sys2Proof.Machine Sys2Proof.Safety

/-- A state with the given registers and stimuli. -/
def st (d p : Nat) (dir : Direction) (pending : List Stimulus) : State :=
  { regs := { divider := BitVec.ofNat 23 d, position := BitVec.ofNat 3 p, direction := dir },
    pending := pending, observed := [] }

/-- Whether an outcome is a next state with these registers, this `led` and this last value read. -/
def gives (o : Host.Outcome State Fault Refusal) (d p : Nat) (dir : Direction) (led : Nat)
    (read : Option Nat) : Bool :=
  match o with
  | .next t => t.regs == (st d p dir []).regs && t.led.toNat == led &&
      t.observed.head?.map BitVec.toNat == read
  | .fault _ => false
  | .refused _ => false

/-! ### Well-formedness: each check refuses an ill-formed term -/

theorem test_wf_width : (Params.mk 0 8 0).widthOk = false := by decide
theorem test_wf_leds : (Params.mk 23 0 21).ledsOk = false := by decide
theorem test_wf_trail : (Params.mk 23 8 23).trailOk = false := by decide
theorem test_wf_default_trail : Params.withDefaultTrail 1 8 = none := by decide
theorem test_wf_divider : Config.normative.dividerOk (2 ^ 23) = false := by decide
theorem test_wf_position : Config.normative.positionOk 8 = false := by decide
theorem test_wf_normative : Config.normative.wf = true ∧
    Params.withDefaultTrail 23 8 = some Config.normative := by decide
/-- No instruction has an operand, so none is ill formed (30_encoding.md R80, R84). -/
theorem test_wf_instr : [Instr.tick, .reset, .pattern].all Instr.wf = true := by decide

/-! ### Decoding: the words of 30_encoding.md R82, R83 -/

theorem test_decode_tick : decodeTableWord 8 0b00000000 = some .tick := by decide
theorem test_decode_reset : decodeTableWord 8 0b00000001 = some .reset := by decide
theorem test_decode_pattern : decodeTableWord 0 0 = some .pattern := by decide
theorem test_decode_rejects :
    decodeTableWord 8 0b00000010 = none ∧ decodeTableWord 0 1 = none := by decide
theorem test_encode_words : encodeWord .tick = (1, 0) ∧ encodeWord .reset = (1, 1) ∧
    encodeWord .pattern = (0, 0) := by decide

/-! ### TICK, RESET, PATTERN -/

/-- 95_test_vectors.md section 2, a row: TICK from one state gives the other and `led`. -/
def tickRow (d p : Nat) (dir : Direction) (d' p' : Nat) (dir' : Direction) (led : Nat) : Bool :=
  gives (exec .tick (st d p dir [])) d' p' dir' led none

/-- 95_test_vectors.md section 2, T1 to T12. -/
theorem test_tick :
    (tickRow 0 0 .right 1 0 .right 0x01 && tickRow 5 3 .left 6 3 .left 0x08 &&
      tickRow 0x7FFFFE 5 .right 0x7FFFFF 5 .right 0x70 &&
      tickRow 0x3FFFFF 2 .left 0x400000 2 .left 0x04 && tickRow 0x7FFFFF 0 .right 0 1 .right 0x02 &&
      tickRow 0x7FFFFF 6 .right 0 7 .right 0x80 && tickRow 0x7FFFFF 7 .right 0 7 .left 0x80 &&
      tickRow 0x7FFFFF 7 .left 0 6 .left 0x40 && tickRow 0x7FFFFF 3 .left 0 2 .left 0x04 &&
      tickRow 0x7FFFFF 1 .left 0 0 .left 0x01 && tickRow 0x7FFFFF 0 .left 0 0 .right 0x01 &&
      tickRow 0x7FFFFF 4 .right 0 5 .right 0x20) = true := by decide

/-- 95_test_vectors.md section 3, X1 to X4. -/
theorem test_reset : [(0x123456, 5, Direction.left), (0x7FFFFF, 3, .right), (0, 0, .right),
    (0x7FFFFF, 7, .right)].all (fun a =>
      gives (exec .reset (st a.1 a.2.1 a.2.2 [])) 0 0 .right 0x01 none) = true := by decide

/-- 95_test_vectors.md section 4, a row: PATTERN hands out `led` and leaves the block as it is. -/
def patternRow (d p : Nat) (dir : Direction) (led : Nat) : Bool :=
  gives (exec .pattern (st d p dir [])) d p dir led (some led)

/-- 95_test_vectors.md section 4, P1 to P14. -/
theorem test_pattern :
    (patternRow 0x1FFFFF 3 .right 0x08 && patternRow 0x200000 3 .right 0x1C &&
      patternRow 0x3FFFFF 3 .right 0x1C && patternRow 0x400000 3 .right 0x08 &&
      patternRow 0x5FFFFF 3 .right 0x08 && patternRow 0x600000 3 .right 0x1C &&
      patternRow 0x7FFFFF 3 .right 0x1C && patternRow 0x200000 3 .left 0x1C &&
      patternRow 0x200000 0 .left 0x03 && patternRow 0x200000 0 .right 0x03 &&
      patternRow 0x200000 7 .right 0xC0 && patternRow 0x200000 7 .left 0xC0 &&
      patternRow 0x600000 6 .left 0xE0 && patternRow 0x000000 1 .left 0x02) = true := by decide

/-- 95_test_vectors.md Program 4: a supplied RESET wins over a due step, the step after it ticks. -/
theorem test_step_supplied :
    gives (step ((st 0x7FFFFF 3 .right []).withFetchWord 8 1)) 0 0 .right 0x01 none = true ∧
    gives (step ((st 0 0 .right []).withFetchWord 8 0)) 1 0 .right 0x01 none = true ∧
    gives (step ((st 0x200000 3 .right []).withFetchWord 0 0)) 0x200000 3 .right 0x1C (some 0x1C)
      = true := by decide

/-! ### Construction and traces -/

/-- The error of a construction, if it is refused (60_exceptions.md R205). -/
def errorOf (p : Params) (d q : Nat) : Option ConstructionError :=
  match construct p d q .right with
  | .error e => some e
  | .ok _ => none

theorem test_construct_refuses :
    errorOf ⟨0, 8, 0⟩ 0 0 = some .dividerWidthZero ∧ errorOf ⟨23, 0, 21⟩ 0 0 = some .noLeds ∧
    errorOf ⟨23, 8, 23⟩ 0 0 = some .trailBitOutOfRange ∧
    errorOf Config.normative (2 ^ 23) 0 = some .dividerOutOfRange ∧
    errorOf Config.normative 0 8 = some .positionOutOfRange ∧
    errorOf Config.normative (2 ^ 23 - 1) 7 = none ∧
    errorOf ⟨3, 5, 1⟩ 0 5 = some .positionOutOfRange := by decide

/-- 00_scope.md R10, R11. -/
theorem test_posWidth : [1, 2, 3, 4, 5, 8, 9].map posWidth = [1, 1, 2, 2, 3, 3, 4] := by decide

/-- Whether a trace goes through at the normative instance. -/
def traceOk (ls : List TraceLine) : Bool :=
  match runTrace Config.normative ls resetRegs with
  | .ok _ => true
  | .error _ => false

/-- 95_test_vectors.md Programs 4 and 6; a wrong EXPECT (the hazard of R235) does not go through. -/
theorem test_trace_programs :
    traceOk [.start 0x7FFFFF 3 .right, .reset, .expect 0 0 .right 0x01, .tick,
      .expect 1 0 .right 0x01] = true ∧
    traceOk [.start 0x7FFFFF 6 .right, .tick, .expect 0 7 .right 0x80] = true ∧
    traceOk [.start 0x7FFFFF 6 .right, .tick, .expect 0 7 .left 0x80] = false := by decide

theorem test_dirbit : Direction.right.dirbit = 0#1 ∧ Direction.left.dirbit = 1#1 := by decide

/-! ### Witnesses: the hypotheses of each statement can be met together -/

theorem witness_TickWithoutStepKeepsHead :
    ∃ s : State, (s.regs.divider.toNat + 1) % 2 ^ 23 ≠ 0 := ⟨st 0x7FFFFE 5 .right [], by decide⟩
theorem witness_TickMovesRight : ∃ s : State, (s.regs.divider.toNat + 1) % 2 ^ 23 = 0 ∧
    s.regs.direction = .right ∧ s.regs.position.toNat ≠ 7 := ⟨st 0x7FFFFF 6 .right [], by decide⟩
theorem witness_TickFlipsAtRightBoundary : ∃ s : State, (s.regs.divider.toNat + 1) % 2 ^ 23 = 0 ∧
    s.regs.direction = .right ∧ s.regs.position.toNat = 7 := ⟨st 0x7FFFFF 7 .right [], by decide⟩
theorem witness_TickMovesLeft : ∃ s : State, (s.regs.divider.toNat + 1) % 2 ^ 23 = 0 ∧
    s.regs.direction = .left ∧ s.regs.position.toNat ≠ 0 := ⟨st 0x7FFFFF 1 .left [], by decide⟩
theorem witness_TickFlipsAtLeftBoundary : ∃ s : State, (s.regs.divider.toNat + 1) % 2 ^ 23 = 0 ∧
    s.regs.direction = .left ∧ s.regs.position.toNat = 0 := ⟨st 0x7FFFFF 0 .left [], by decide⟩
theorem witness_StepFiresExactlyWhenUpdatedDividerIsZero :
    ∃ s : State, s.regs.divider.toNat = 0 := ⟨st 0 0 .right [], by decide⟩
/-- OneActionPerStep: a move, and both flips. -/
theorem witness_OneActionPerStep :
    (∃ s : State, (s.regs.divider.toNat + 1) % 2 ^ 23 = 0 ∧ tickCase 8 s.regs = .moveR) ∧
    (∃ s : State, (s.regs.divider.toNat + 1) % 2 ^ 23 = 0 ∧ tickCase 8 s.regs = .flipR) ∧
    ∃ s : State, (s.regs.divider.toNat + 1) % 2 ^ 23 = 0 ∧ tickCase 8 s.regs = .flipL :=
  ⟨⟨st 0x7FFFFF 6 .right [], by decide⟩, ⟨st 0x7FFFFF 7 .right [], by decide⟩,
    ⟨st 0x7FFFFF 0 .left [], by decide⟩⟩
/-- TickFollowsPseudocodeAtAnyParameters, LegalPositionInEveryRun (and the parameters of
TickCasesExclusiveAndExhaustive and TicksAreOneCycleThroughLegalStates): at `N = 8`, at `N = 5` (no power
of two) and at `N = 1`. -/
theorem witness_LegalParameters :
    (1 ≤ 8 ∧ 8 ≤ 2 ^ 3 ∧ Legal 8 (⟨0x7FFFFF#23, 7#3, .right⟩ : Regs 23 3)) ∧
    (1 ≤ 5 ∧ 5 ≤ 2 ^ 3 ∧ Legal 5 (⟨7#3, 4#3, .left⟩ : Regs 3 3)) ∧
    (1 ≤ 1 ∧ 1 ≤ 2 ^ 1 ∧ Legal 1 (⟨0#1, 0#1, .left⟩ : Regs 1 1)) := by decide
/-- TickCasesExclusiveAndExhaustive: each of the five conditions is met. -/
theorem witness_TickCases :
    caseCondition 8 (⟨0#23, 0#3, .right⟩ : Regs 23 3) .noStep ∧
    caseCondition 8 (⟨0x7FFFFF#23, 6#3, .right⟩ : Regs 23 3) .moveR ∧
    caseCondition 8 (⟨0x7FFFFF#23, 7#3, .right⟩ : Regs 23 3) .flipR ∧
    caseCondition 8 (⟨0x7FFFFF#23, 1#3, .left⟩ : Regs 23 3) .moveL ∧
    caseCondition 8 (⟨0x7FFFFF#23, 0#3, .left⟩ : Regs 23 3) .flipL := by
  unfold caseCondition; decide
theorem witness_ResetBeatsDueStep : ∃ (s : State) (es : List Stimulus),
    s.pending = .edge 1#1 :: es ∧ stepEn s.regs.divider = true :=
  ⟨st 0x7FFFFF 3 .right [.edge 1#1], [], by decide⟩
/-- FirstStepComesAFullPeriodAfterReset: below the period, and at it. -/
theorem witness_FirstStepComesAFullPeriodAfterReset :
    (∃ (s : State) (n k : Nat) (es : List Stimulus), 1 ≤ n ∧ k ≤ 2 ^ 23 ∧
      s.pending = resetEdges n ++ tickEdges k ++ es ∧ k ≠ 2 ^ 23) ∧
    ∃ (s : State) (n k : Nat) (es : List Stimulus), 1 ≤ n ∧ k ≤ 2 ^ 23 ∧
      s.pending = resetEdges n ++ tickEdges k ++ es ∧ k = 2 ^ 23 :=
  ⟨⟨st 5 3 .left (resetEdges 2 ++ tickEdges 0 ++ []), 2, 0, [], by decide⟩,
    ⟨st 5 3 .left (resetEdges 1 ++ tickEdges (2 ^ 23) ++ []), 1, 2 ^ 23, [],
      by omega, Nat.le_refl _, rfl, rfl⟩⟩
/-- LedAfterResetUntilTrailRises: before the trail rises, and when it does. -/
theorem witness_LedAfterResetUntilTrailRises :
    (∃ (s : State) (k : Nat) (es : List Stimulus), k ≤ 2 ^ 21 ∧
      s.pending = .edge 1#1 :: tickEdges k ++ es ∧ k ≠ 2 ^ 21) ∧
    ∃ (s : State) (k : Nat) (es : List Stimulus), k ≤ 2 ^ 21 ∧
      s.pending = .edge 1#1 :: tickEdges k ++ es ∧ k = 2 ^ 21 :=
  ⟨⟨st 5 3 .left (.edge 1#1 :: tickEdges 0 ++ []), 0, [], by decide⟩,
    ⟨st 5 3 .left (.edge 1#1 :: tickEdges (2 ^ 21) ++ []), 2 ^ 21, [], Nat.le_refl _, rfl, rfl⟩⟩
/-- PatternLanes and PatternDependsOnHeadAndTrailOnly: the boundaries and an interior position; two
states that differ in the direction and in every other divider bit. -/
theorem witness_PatternLanes :
    (∃ s : State, s.regs.position.toNat = 0) ∧ (∃ s : State, s.regs.position.toNat = 7) ∧
    (∃ s : State, 0 < s.regs.position.toNat ∧ s.regs.position.toNat < 7) ∧
    ∃ s s' : State, s.regs.position = s'.regs.position ∧
      s.regs.divider.getLsbD 21 = s'.regs.divider.getLsbD 21 ∧
      s.regs.direction ≠ s'.regs.direction ∧ s.regs.divider ≠ s'.regs.divider :=
  ⟨⟨st 0 0 .right [], by decide⟩, ⟨st 0 7 .right [], by decide⟩, ⟨st 0 6 .right [], by decide⟩,
    ⟨st 0x200000 3 .right [], st 0x7FFFFF 3 .left [], by decide⟩⟩
theorem witness_PatternHasNoSideEffect : ∃ (s : State) (n : Nat) (es : List Stimulus),
    s.pending = List.replicate n .readLed ++ es ∧ 2 ≤ n :=
  ⟨st 0x200000 3 .right [.readLed, .readLed, .edge 0#1], 2, [.edge 0#1], by decide⟩
/-- PatternIsWholeVectorForm, and LitLaneCount with its clauses `N = 1`, `N = 2` and `N >= 3` (a boundary
and an interior head). -/
theorem witness_PatternHeadInRange :
    (∃ N head : Nat, head < N ∧ N = 1) ∧ (∃ N head : Nat, head < N ∧ N = 2) ∧
    (∃ N head : Nat, head < N ∧ 3 ≤ N ∧ head = N - 1) ∧
    ∃ N head : Nat, head < N ∧ 3 ≤ N ∧ head ≠ 0 ∧ head ≠ N - 1 :=
  ⟨⟨1, 0, by decide⟩, ⟨2, 1, by decide⟩, ⟨3, 2, by decide⟩, ⟨3, 1, by decide⟩⟩
/-- LedFollowsPostEdgeState: a TICK that steps, and a RESET where a step is due. -/
theorem witness_LedFollowsPostEdgeState :
    (∃ (s : State) (iw : InputWord) (es : List Stimulus),
      s.pending = .edge iw :: .readLed :: es ∧ iw.getLsbD 0 = false ∧ stepEn s.regs.divider = true) ∧
    ∃ (s : State) (iw : InputWord) (es : List Stimulus),
      s.pending = .edge iw :: .readLed :: es ∧ iw.getLsbD 0 = true ∧ stepEn s.regs.divider = true :=
  ⟨⟨st 0x7FFFFF 6 .right [.edge 0#1, .readLed], 0#1, [], by decide⟩,
    ⟨st 0x7FFFFF 6 .right [.edge 1#1, .readLed], 1#1, [], by decide⟩⟩
/-- TrailIsSquareWave: the normative trail bit, and the top bit of the narrowest divider; for the clause
of the constant level, the last cycle of a level that starts at a multiple of `2^21`. -/
theorem witness_TrailIsSquareWave :
    (∃ W T : Nat, T < W ∧ W = 23 ∧ T = 21) ∧ (∃ W T : Nat, T < W ∧ W = 1) ∧
    ∃ (r : Regs 23 3) (j : Nat), r.divider.toNat % 2 ^ 21 = 0 ∧ r.divider.toNat ≠ 0 ∧
      j < 2 ^ 21 ∧ j + 1 = 2 ^ 21 :=
  ⟨⟨23, 21, by decide⟩, ⟨1, 0, by decide⟩, ⟨⟨0x600000#23, 3#3, .left⟩, 2 ^ 21 - 1, by decide⟩⟩
theorem witness_TrailTimelineWithinStepPeriod : ∃ (s : State) (k : Nat) (es : List Stimulus),
    s.regs.divider = 0#23 ∧ k < 2 ^ 23 ∧ s.pending = tickEdges k ++ es ∧
      2 ^ 21 ≤ k ∧ k < 2 ^ 22 :=
  ⟨st 0 3 .left (tickEdges (2 ^ 21) ++ []), 2 ^ 21, [], rfl, by decide, rfl, Nat.le_refl _, by decide⟩
theorem witness_EdgeOperationSelectedByRst :
    (∃ (s : State) (iw : InputWord) (es : List Stimulus),
      s.pending = .edge iw :: es ∧ iw.getLsbD 0 = false) ∧
    ∃ (s : State) (iw : InputWord) (es : List Stimulus),
      s.pending = .edge iw :: es ∧ iw.getLsbD 0 = true :=
  ⟨⟨st 0 0 .right [.edge 0#1], 0#1, [], by decide⟩, ⟨st 0 0 .right [.edge 1#1], 1#1, [], by decide⟩⟩
theorem witness_StepRunsSelectedOperation : ∃ (s : State) (i : Instr) (es : List Stimulus),
    s.pending = encode i :: es := ⟨st 1 2 .left [.readLed], .pattern, [], by decide⟩
theorem witness_IdleStepIsTick : ∃ s : State, s.pending = [] := ⟨State.reset, rfl⟩
theorem witness_SuppliedWordRunsNext : ∃ (nbits w : Nat) (i : Instr),
    decodeTableWord nbits w = some i := ⟨8, 1, .reset, by decide⟩
/-- MachineNeverHalts: its second clause, at its bound. -/
theorem witness_MachineNeverHalts : ∃ (k : Nat) (s : State), k ≤ s.pending.length ∧ k = 2 ∧
    k = s.pending.length :=
  ⟨2, st 1 2 .left [.readLed, .edge 1#1], by decide⟩
theorem witness_StepKeepsObservedInTable :
    ∃ s t : State, ObservedInTable s ∧ step s = .next t ∧ t.observed ≠ [] :=
  ⟨st 0x200000 3 .right [.readLed], { st 0x200000 3 .right [] with observed := [0x1C#8] },
    by decide, rfl, by decide⟩
theorem witness_MachineRefinesInputWords : ∃ (es rest : List Stimulus) (s : State),
    s.pending = es ++ rest :=
  ⟨[.edge 0#1, .readLed], [.edge 1#1], st 1 2 .left [.edge 0#1, .readLed, .edge 1#1], by decide⟩
theorem witness_ObservationHasOneEntryPerEdge : ∃ (ws : List InputWord) (k : Nat), k < ws.length :=
  ⟨[0#1, 1#1], 1, by decide⟩
/-- StepCadence: a TICK that steps, and one that does not. -/
theorem witness_StepCadence :
    (∃ (r : Regs 3 2) (n : Nat), 1 ≤ n ∧ stepEn ((tickRegs 4)^[n - 1] r).divider = true) ∧
    ∃ (r : Regs 3 2) (n : Nat), 1 ≤ n ∧ stepEn ((tickRegs 4)^[n - 1] r).divider = false :=
  ⟨⟨⟨5#3, 0#2, .right⟩, 3, by decide⟩, ⟨⟨0#3, 0#2, .right⟩, 1, by decide⟩⟩
theorem witness_BounceSequence : ∃ r : Regs 23 3, 1 ≤ 8 ∧ 8 ≤ 2 ^ 3 ∧
    r.position.toNat = 0 ∧ r.direction = .right := ⟨⟨0x123456#23, 0#3, .right⟩, by decide⟩
/-- BounceReturnsAfterSixteenSteps: each of its three clauses. -/
theorem witness_BounceReturnsAfterSixteenSteps :
    ∀ k ∈ [14, 15, 16], ∃ (s : State) (es : List Stimulus),
      s.regs = { divider := 0#23, position := 0#3, direction := .right } ∧
      s.pending = tickEdges (k * 2 ^ 23) ++ es :=
  fun k _ => ⟨st 0 0 .right (tickEdges (k * 2 ^ 23) ++ []), [], rfl, rfl⟩
theorem witness_TickRunClosedForm : ∃ (s : State) (n : Nat) (es : List Stimulus),
    s.regs = { divider := 0#23, position := 0#3, direction := .right } ∧
    s.pending = tickEdges n ++ es := ⟨st 0 0 .right (tickEdges 3 ++ []), 3, [], rfl, rfl⟩
theorem witness_TicksAreOneCycleThroughLegalStates :
    ∃ (r r' : Regs 3 2) (t : Nat), Legal 4 r ∧ Legal 4 r' ∧ 0 < t ∧ t < 2 * 4 * 2 ^ 3 ∧ r ≠ r' :=
  ⟨⟨0#3, 0#2, .right⟩, ⟨7#3, 3#2, .left⟩, 63, by decide⟩
theorem witness_SingleLedAlternates : ∃ r : Regs 3 1, r.position.toNat = 0 :=
  ⟨⟨7#3, 0#1, .left⟩, by decide⟩
theorem witness_PositionWidthIsLeast : ∃ N Q : Nat, 1 ≤ Q ∧ N ≤ 2 ^ Q ∧ posWidth N = Q :=
  ⟨5, 3, by decide⟩
theorem witness_TraceRunsAsItsEncoding : ∀ l ∈ [TraceLine.tick, .reset, .tickTimes 2, .resetTimes 2],
    (∀ d q dir, l ≠ .start d q dir) ∧ ∀ d q dir x, l ≠ .expect d q dir x := by
  intro l hl
  fin_cases hl <;> exact ⟨fun _ _ _ => nofun, fun _ _ _ _ => nofun⟩

end Sys2Proof.Tests
end

namespace Sys2Proof.EdgeOps

open Sys2Proof.Machine

/-! SUPPORT. The clock-edge operation TICK (40_edge_ops.md): what each of its cases commits, at any
parameters, then the statements about `exec .tick` at the normative instance. -/

section Registers

variable {W P : Nat} {N : Nat} {r : Regs W P}

/-! ### Each case of TICK: when it is taken and what it commits (30_encoding.md R85) -/

/-- NOSTEP (R104). -/
theorem tickRegs_noStep (hs : stepEn r.divider = false) :
    tickCase N r = .noStep ∧
      tickRegs N r = ⟨dividerNext r.divider, r.position, r.direction⟩ := by
  simpa [hs] using tickRegs_cases N r

/-- MOVE_R (R105). -/
theorem tickRegs_moveR (hs : stepEn r.divider = true) (hd : r.direction = .right)
    (hb : r.head ≠ N - 1) :
    tickCase N r = .moveR ∧
      tickRegs N r = ⟨dividerNext r.divider, r.position + 1#P, .right⟩ := by
  simpa [hs, hd, hb] using tickRegs_cases N r

/-- FLIP_R (R106). -/
theorem tickRegs_flipR (hs : stepEn r.divider = true) (hd : r.direction = .right)
    (hb : r.head = N - 1) :
    tickCase N r = .flipR ∧
      tickRegs N r = ⟨dividerNext r.divider, r.position, .left⟩ := by
  simpa [hs, hd, hb] using tickRegs_cases N r

/-- MOVE_L (R107). -/
theorem tickRegs_moveL (hs : stepEn r.divider = true) (hd : r.direction = .left)
    (hb : r.head ≠ 0) :
    tickCase N r = .moveL ∧
      tickRegs N r = ⟨dividerNext r.divider, r.position - 1#P, .left⟩ := by
  simpa [hs, hd, hb] using tickRegs_cases N r

/-- FLIP_L (R108). -/
theorem tickRegs_flipL (hs : stepEn r.divider = true) (hd : r.direction = .left)
    (hb : r.head = 0) :
    tickCase N r = .flipL ∧
      tickRegs N r = ⟨dividerNext r.divider, r.position, .right⟩ := by
  simpa [hs, hd, hb] using tickRegs_cases N r

/-! ### The registers after TICK, in numbers -/

/-- The step condition reads the updated divider (R102). -/
theorem stepEn_iff_tickRegs_divider_eq_zero (N : Nat) (r : Regs W P) :
    stepEn r.divider = true ↔ (tickRegs N r).divider.toNat = 0 := by
  rw [tickRegs_divider, dividerNext_toNat, stepEn_eq_true]

/-- At a step the divider becomes 0. -/
theorem dividerNext_toNat_of_step {d : BitVec W} (hs : (d.toNat + 1) % 2 ^ W = 0) :
    (dividerNext d).toNat = 0 := by
  rw [dividerNext_toNat, hs]

theorem dividerNext_eq_ofNat (d : BitVec W) : dividerNext d = BitVec.ofNat W (d.toNat + 1) := by
  rw [← BitVec.toNat_inj, dividerNext_toNat, BitVec.toNat_ofNat]

/-- A move up does not wrap while there is a higher index. -/
theorem toNat_add_one {p : BitVec P} (h : p.toNat + 1 < 2 ^ P) :
    (p + 1#P).toNat = p.toNat + 1 := by
  rw [BitVec.toNat_add, BitVec.toNat_ofNat, Nat.add_mod_mod, Nat.mod_eq_of_lt h]

/-- A move down does not wrap away from index 0. -/
theorem toNat_sub_one_add_one {p : BitVec P} (h : p.toNat ≠ 0) :
    (p - 1#P).toNat + 1 = p.toNat := by
  have hone : (1#P).toNat = 1 := Nat.mod_eq_of_lt (by have := p.isLt; omega)
  have hle : 1#P ≤ p := by rw [BitVec.le_def, hone]; omega
  rw [BitVec.toNat_sub_of_le hle, hone]
  omega

/-- TICK changes the pair (position, direction) exactly at a step: a move writes another position, a
flip another direction. (A position register of no bits could not move.) -/
theorem stepEn_iff_tickRegs_changes_pair (hP : P ≠ 0) (N : Nat) (r : Regs W P) :
    stepEn r.divider = true ↔
      ((tickRegs N r).position, (tickRegs N r).direction) ≠ (r.position, r.direction) := by
  rcases tickRegs_cases N r with ⟨hs, -, ht⟩ | ⟨hs, -, -, -, ht⟩ | ⟨hs, hd, -, -, ht⟩ |
    ⟨hs, -, -, -, ht⟩ | ⟨hs, hd, -, -, ht⟩
  case inl => simp [hs, ht]
  case inr.inl => simp [hs, ht, hP]
  case inr.inr.inl => simp [hs, ht, hd]
  case inr.inr.inr.inl => simp [hs, ht, hP]
  case inr.inr.inr.inr => simp [hs, ht, hd]

end Registers

/-! ### The normative instance -/

/-- TICK completes with the registers it commits; the environment's side stays (R110, R111). -/
theorem exec_tick_of_tickRegs {s : State} {r : Regs Config.W Config.P}
    (h : tickRegs Config.N s.regs = r) : exec .tick s = .next (s.setRegs r) := by
  rw [exec_tick, h]

/-- Settles O7: both equivalences meet in the step condition, which reads the updated divider. -/
theorem stepFiresExactlyWhenUpdatedDividerIsZero :
    Obligations.StepFiresExactlyWhenUpdatedDividerIsZero := by
  intro s
  have hzero := stepEn_iff_tickRegs_divider_eq_zero Config.N s.regs
  have hpair := stepEn_iff_tickRegs_changes_pair (by decide) Config.N s.regs
  refine ⟨_, exec_tick s, hzero, hzero.symm.trans hpair, fun h0 => ?_⟩
  have hone : (dividerNext s.regs.divider).toNat = 1 := by simp [dividerNext_toNat, h0]
  exact ⟨hone, (stepEn_eq_false _).2 (by simp [h0])⟩

/-- Settles O1: TICK's divider is the updated one in all its cases, and PATTERN, the only
instruction beside TICK and RESET, writes no register. -/
theorem tickCountsDividerModulo : Obligations.TickCountsDividerModulo := by
  intro s
  refine ⟨⟨_, exec_tick s, dividerNext_toNat _, rfl, rfl⟩, fun i htick hreset => ?_⟩
  cases i with
  | tick => exact absurd rfl htick
  | reset => exact absurd rfl hreset
  | pattern => exact ⟨_, exec_pattern s, rfl⟩

/-- Settles O2: the case NOSTEP. -/
theorem tickWithoutStepKeepsHead : Obligations.TickWithoutStepKeepsHead := by
  intro s hs
  obtain ⟨-, ht⟩ := tickRegs_noStep ((stepEn_eq_false _).2 hs)
  rw [exec_tick_of_tickRegs ht, dividerNext_eq_ofNat, State.setRegs]

/-- Settles O3: the case MOVE_R; below 7 the three-bit position has room for one more. -/
theorem tickMovesRight : Obligations.TickMovesRight := by
  intro s hs hd hp
  obtain ⟨-, ht⟩ := tickRegs_moveR (N := Config.N) ((stepEn_eq_true _).2 hs) hd hp
  have hroom : s.regs.position.toNat + 1 < 2 ^ 3 := by
    have hlt : s.regs.position.toNat < 8 := s.regs.position.isLt
    omega
  exact ⟨_, exec_tick_of_tickRegs ht, toNat_add_one hroom, dividerNext_toNat_of_step hs, rfl, rfl,
    rfl⟩

/-- Settles O4: the case FLIP_R. -/
theorem tickFlipsAtRightBoundary : Obligations.TickFlipsAtRightBoundary := by
  intro s hs hd hp
  obtain ⟨-, ht⟩ := tickRegs_flipR (N := Config.N) ((stepEn_eq_true _).2 hs) hd hp
  exact ⟨_, exec_tick_of_tickRegs ht, rfl, dividerNext_toNat_of_step hs, hp, rfl, rfl⟩

/-- Settles O5: the case MOVE_L; above 0 the subtraction does not borrow. -/
theorem tickMovesLeft : Obligations.TickMovesLeft := by
  intro s hs hd hp
  obtain ⟨-, ht⟩ := tickRegs_moveL ((stepEn_eq_true _).2 hs) hd hp
  exact ⟨_, exec_tick_of_tickRegs ht, toNat_sub_one_add_one hp, dividerNext_toNat_of_step hs, rfl,
    rfl, rfl⟩

/-- Settles O6: the case FLIP_L. -/
theorem tickFlipsAtLeftBoundary : Obligations.TickFlipsAtLeftBoundary := by
  intro s hs hd hp
  obtain ⟨-, ht⟩ := tickRegs_flipL ((stepEn_eq_true _).2 hs) hd hp
  exact ⟨_, exec_tick_of_tickRegs ht, rfl, dividerNext_toNat_of_step hs, hp, rfl, rfl⟩

/-- Settles O8: by the four step cases, O3 to O6. A move keeps the direction; a flip, taken at a
boundary only, keeps the position. -/
theorem oneActionPerStep : Obligations.OneActionPerStep := by
  intro s hs
  cases hd : s.regs.direction with
  | right =>
    by_cases hp : s.regs.position.toNat = 7
    · obtain ⟨t, hexec, hdir, -, hpos, -, -⟩ := tickFlipsAtRightBoundary s hs hd hp
      refine ⟨t, hexec, by simp [hdir, hpos, hp], fun _ => ⟨?_, .inr ⟨rfl, hdir, hp⟩⟩⟩
      exact BitVec.eq_of_toNat_eq (hpos.trans hp.symm)
    · obtain ⟨t, hexec, hpos, -, hdir, -, -⟩ := tickMovesRight s hs hd hp
      exact ⟨t, hexec, by simp [hdir, hpos], fun h => absurd hdir h⟩
  | left =>
    by_cases hp : s.regs.position.toNat = 0
    · obtain ⟨t, hexec, hdir, -, hpos, -, -⟩ := tickFlipsAtLeftBoundary s hs hd hp
      refine ⟨t, hexec, by simp [hdir, hpos, hp], fun _ => ⟨?_, .inl ⟨rfl, hdir, hp⟩⟩⟩
      exact BitVec.eq_of_toNat_eq (hpos.trans hp.symm)
    · obtain ⟨t, hexec, hpos, -, hdir, -, -⟩ := tickMovesLeft s hs hd hp
      exact ⟨t, hexec, by simp [hdir, hpos], fun h => absurd hdir h⟩

end Sys2Proof.EdgeOps

namespace Sys2Proof.Output

open Sys2Proof.Machine Sys2Proof.Safety

/-! SUPPORT. The output function PATTERN (41_pattern.md): its lanes at any number of LEDs, the table of
the block with eight LEDs, and the trail phase as a bit of the divider. -/

/-! ### The lanes -/

section Lanes

variable {N head i : Nat} {trail : Bool}

theorem pattern_getLsbD_of_lt (h : i < N) :
    (pattern N head trail).getLsbD i = laneLevel N head trail i := by
  rw [pattern_getLsbD, decide_eq_true h, Bool.true_and]

/-- The head lane is lit (R142). -/
theorem pattern_getLsbD_head (h : head < N) : (pattern N head trail).getLsbD head = true := by
  rw [pattern_getLsbD_of_lt h, laneLevel_head]

/-- The lane left of the head, where there is one (R143). -/
theorem pattern_getLsbD_left (h : head < N) (h0 : 0 < head) :
    (pattern N head trail).getLsbD (head - 1) = trail := by
  rw [pattern_getLsbD_of_lt (by omega), laneLevel_left N head trail h0]

/-- The lane right of the head, where there is one (R144). -/
theorem pattern_getLsbD_right (h : head < N - 1) :
    (pattern N head trail).getLsbD (head + 1) = trail := by
  rw [pattern_getLsbD_of_lt (by omega), laneLevel_right N head trail h]

/-- Every lane away from the head and its neighbours is off (R145). -/
theorem pattern_getLsbD_other (h : i ≠ head) (hl : i + 1 ≠ head) (hr : i ≠ head + 1) :
    (pattern N head trail).getLsbD i = false := by
  rw [pattern_getLsbD, laneLevel_other N head trail i h hl hr, Bool.and_false]

/-- With the trail off the head lane alone is lit. -/
theorem laneLevel_trail_off : laneLevel N head false i = decide (i = head) := by
  by_cases h : i = head
  · simp [laneLevel, h]
  · simp [laneLevel, h]

/-- With the trail on the lit lanes are the head and the lanes beside it. -/
theorem laneLevel_trail_on (hh : head < N) (hi : i < N) :
    laneLevel N head true i = decide (head - 1 ≤ i ∧ i < head + 2) := by
  by_cases h : i = head ∨ i + 1 = head ∨ i = head + 1
  · rw [decide_eq_true (by omega)]
    rcases h with rfl | rfl | rfl
    · exact laneLevel_head N i true
    · exact laneLevel_left N (i + 1) true (Nat.succ_pos i)
    · exact laneLevel_right N head true (by omega)
  · rw [laneLevel_other N head true i (by omega) (by omega) (by omega)]
    simp only [Bool.false_eq, decide_eq_false_iff_not]
    omega

end Lanes

/-- The numbers of an interval below `n`, counted. -/
theorem countP_range_interval (a b n : Nat) :
    ((List.range n).countP fun i => decide (a ≤ i ∧ i < b)) = min b n - a := by
  induction n with
  | zero => simp
  | succ n ih =>
    rw [List.range_succ, List.countP_append, ih, List.countP_singleton]
    split
    next h =>
      have := of_decide_eq_true h
      omega
    next h =>
      have : ¬ (a ≤ n ∧ n < b) := fun hn => h (decide_eq_true hn)
      omega

/-- The lit lanes of a pattern, counted on its lanes. -/
theorem litCount_pattern (N head : Nat) (trail : Bool) :
    litCount (pattern N head trail) = (List.range N).countP (laneLevel N head trail) := by
  refine List.countP_congr fun i hi => ?_
  rw [pattern_getLsbD_of_lt (List.mem_range.1 hi)]

/-- One lane is lit with the trail off (R152). -/
theorem litCount_pattern_trail_off {N head : Nat} (h : head < N) :
    litCount (pattern N head false) = 1 := by
  have hone : (List.range N).countP (laneLevel N head false) =
      (List.range N).countP fun i => decide (head ≤ i ∧ i < head + 1) := by
    refine List.countP_congr fun i _ => ?_
    rw [laneLevel_trail_off, decide_eq_true_iff, decide_eq_true_iff]
    omega
  rw [litCount_pattern, hone, countP_range_interval]
  omega

/-- With the trail on the lit lanes are the interval around the head, cut at the boundaries (R152). -/
theorem litCount_pattern_trail_on {N head : Nat} (h : head < N) :
    litCount (pattern N head true) = min (head + 2) N - (head - 1) := by
  rw [litCount_pattern, ← countP_range_interval]
  refine List.countP_congr fun i hi => ?_
  rw [laneLevel_trail_on h (List.mem_range.1 hi)]

/-- Settles O22: the lit lanes are an interval, of one lane or of the head and what is beside it. -/
theorem litLaneCount : Obligations.LitLaneCount := by
  intro N head h
  rw [litCount_pattern_trail_off h, litCount_pattern_trail_on h]
  refine ⟨rfl, fun hN => ?_, fun hN => ?_, fun hN => ?_⟩
  · split <;> omega
  · omega
  · omega

/-- Settles O21: lane by lane, the shifted vectors light the lanes beside the head. -/
theorem patternIsWholeVectorForm : Obligations.PatternIsWholeVectorForm := by
  intro N head trail hhead
  refine BitVec.eq_of_getLsbD_eq fun i hi => ?_
  cases trail with
  | false =>
    rw [pattern_getLsbD, laneLevel_trail_off]
    simp only [Bool.false_eq_true, if_false, BitVec.or_zero, onehot_getLsbD]
  | true =>
    rw [pattern_getLsbD_of_lt hi, laneLevel_trail_on hhead hi, Bool.eq_iff_iff]
    simp only [if_true, BitVec.getLsbD_or, BitVec.getLsbD_shiftLeft, BitVec.getLsbD_ushiftRight,
      onehot_getLsbD, Bool.and_eq_true, Bool.or_eq_true, Bool.not_eq_true', decide_eq_true_iff,
      decide_eq_false_iff_not]
    omega

/-! ### The port `led` -/

/-- PATTERN of the committed state (R150). -/
theorem led_eq_pattern (s : State) :
    s.led = pattern 8 s.regs.position.toNat (s.regs.divider.getLsbD 21) := rfl

theorem position_lt (s : State) : s.regs.position.toNat < 8 := s.regs.position.isLt

/-- Settles O17: PATTERN hands out `led`, whose lanes are those of the pattern. -/
theorem patternLanes : Obligations.PatternLanes := by
  intro s
  have hp := position_lt s
  exact ⟨_, s.led, exec_pattern s, rfl, rfl, rfl, pattern_getLsbD_head hp,
    pattern_getLsbD_left hp, pattern_getLsbD_right (N := 8),
    fun i _ hhead hleft hright => pattern_getLsbD_other hhead hleft hright⟩

/-- Settles O19: both states hand out one `led`; at a boundary the lanes named are no neighbours. -/
theorem patternDependsOnHeadAndTrailOnly : Obligations.PatternDependsOnHeadAndTrailOnly := by
  intro s s' hpos htrail
  have hp := position_lt s
  refine ⟨_, _, pattern 8 s.regs.position.toNat (s.regs.divider.getLsbD 21), exec_pattern s,
    exec_pattern s', rfl, ?_, fun h0 i hi => ?_, fun h7 i hi => ?_, fun ⟨hl, hr⟩ => ⟨?_, ?_⟩⟩
  · rw [State.publish_observed, led_eq_pattern, hpos, htrail]
  · exact pattern_getLsbD_other (by omega) (by omega) (by omega)
  · exact pattern_getLsbD_other (by omega) (by omega) (by omega)
  · exact pattern_getLsbD_left hp hl
  · exact pattern_getLsbD_right (Nat.lt_succ_of_le hr)

/-- Where the table of R148 holds each pattern: the first row without the trail, the second with it. -/
theorem tablePatterns_getElem? (head : Fin 8) (trail : Bool) :
    tablePatterns[if trail then 8 + head.val else head.val]? = some (pattern 8 head trail) := by
  revert head trail
  decide

/-- Settles O20, by the table's entry at each of the eight positions. -/
theorem ledTable : Obligations.LedTable := by
  intro s
  have hp := position_lt s
  have hentry := tablePatterns_getElem? ⟨_, hp⟩ (s.regs.divider.getLsbD 21)
  rw [← Option.some_inj, led_eq_pattern, ← hentry]
  generalize s.regs.divider.getLsbD 21 = trail
  generalize s.regs.position.toNat = head at hp
  cases trail with
  | false => interval_cases head <;> rfl
  | true => interval_cases head <;> rfl

/-- Every value of `led` is a pattern of the table (R148). -/
theorem led_mem_tablePatterns (s : State) : s.led ∈ tablePatterns :=
  List.mem_of_getElem? (tablePatterns_getElem? ⟨_, position_lt s⟩ _)

/-- Settles O38: a step adds to what has been read nothing but the present `led`. -/
theorem stepKeepsObservedInTable : Obligations.StepKeepsObservedInTable := by
  intro s t hs hstep v hv
  rcases step_cases hstep with ⟨-, hobs⟩ | ⟨-, hobs⟩ | ⟨-, hobs⟩
  · exact hs v (hobs ▸ hv)
  · exact hs v (hobs ▸ hv)
  · rw [hobs, List.mem_cons] at hv
    rcases hv with rfl | hv
    · exact led_mem_tablePatterns s
    · exact hs v hv

/-- Settles O39: at reset nothing has been read. -/
theorem resetObservedInTable : Obligations.ResetObservedInTable :=
  fun _ hv => absurd hv List.not_mem_nil

/-- Settles O16: the registers are the initial ones and the derived values are computed from them. -/
theorem resetStateValues : Obligations.ResetStateValues := by
  refine ⟨rfl, rfl, rfl, rfl, ?_, ?_, ?_⟩
  · decide
  · decide
  · exact ledTable State.reset

/-! ### The trail phase -/

/-- Bit `T` of the divider as a number (R141). -/
theorem trailOn_eq_testBit {W : Nat} (T : Nat) (d : BitVec W) :
    trailOn T d = d.toNat.testBit T := rfl

/-- Settles O24: a bit of a number is the parity of its quotient. -/
theorem trailPhaseIsParityOfQuotient : Obligations.TrailPhaseIsParityOfQuotient := by
  intro W T d
  rw [trailOn_eq_testBit, Nat.testBit_eq_decide_div_mod_eq, decide_eq_true_iff]

/-- The trail phase after `j` TICKs is bit `T` of the count: the wrap of the divider is above it. -/
theorem trailOn_tickRegs_iterate {W P T : Nat} (hT : T < W) (N j : Nat) (r : Regs W P) :
    trailOn T ((tickRegs N)^[j] r).divider = (r.divider.toNat + j).testBit T := by
  rw [trailOn_eq_testBit, tickRegs_iterate_divider, Nat.testBit_mod_two_pow]
  simp [hT]

/-- Settles O25: adding `2^T` inverts bit `T`; below the next multiple of `2^T` the quotient stays. -/
theorem trailIsSquareWave : Obligations.TrailIsSquareWave := by
  intro W P N T r hT
  simp only [trailOn_tickRegs_iterate hT, trailOn_eq_testBit]
  have hinvert (n : Nat) : (n + 2 ^ T).testBit T = !n.testBit T := by
    rw [Nat.add_comm, Nat.testBit_two_pow_add_eq]
  refine ⟨fun hmul j hj => ?_, hinvert _, ?_⟩
  · have hquot : (r.divider.toNat + j) / 2 ^ T = r.divider.toNat / 2 ^ T := by
      rw [Nat.add_div_of_dvd_right (Nat.dvd_of_mod_eq_zero hmul), Nat.div_eq_of_lt hj, Nat.add_zero]
    rw [Nat.testBit_eq_decide_div_mod_eq, hquot, ← Nat.testBit_eq_decide_div_mod_eq]
  · rw [Nat.pow_succ, Nat.mul_two, ← Nat.add_assoc, hinvert, hinvert, Bool.not_not]

end Sys2Proof.Output

namespace Sys2Proof.Selection

open Sys2Proof.Machine Sys2Proof.Safety

/-! SUPPORT. The decoder and the encoder (30_encoding.md), and what a step does with each stimulus. -/

/-! ### Decoding and encoding -/

/-- Each instruction is selected by the stimulus that encodes it, and by no other (R82, R83). -/
@[simp] theorem decodeStimulus_encode (i : Instr) : decodeStimulus (encode i) = i := by
  cases i <;> rfl

theorem inputWord_eq_zero_or_one (iw : InputWord) : iw = 0#1 ∨ iw = 1#1 := by
  have hlt : iw.toNat < 2 := iw.isLt
  have hval : iw.toNat = 0 ∨ iw.toNat = 1 := by omega
  exact hval.imp BitVec.eq_of_toNat_eq BitVec.eq_of_toNat_eq

theorem encode_decodeStimulus (e : Stimulus) : encode (decodeStimulus e) = e := by
  cases e with
  | readLed => rfl
  | edge iw => rcases inputWord_eq_zero_or_one iw with rfl | rfl <;> rfl

/-- A word that decodes is the layout of a stimulus, and the instruction is the one it performs. -/
theorem decodeTableWord_eq_some {nbits w : Nat} {i : Instr} :
    decodeTableWord nbits w = some i ↔
      ∃ e, stimulusOfWord nbits w = .ok e ∧ decodeStimulus e = i := by
  unfold decodeTableWord decodeWord
  cases stimulusOfWord nbits w <;> simp

/-- Settles O30, by the three layouts of a stimulus. -/
theorem tableWordDecodedExactly : Obligations.TableWordDecodedExactly := by
  intro nbits w i
  rw [decodeTableWord_eq_some]
  constructor
  · rintro ⟨e, he, rfl⟩
    rcases stimulusOfWord_ok he with ⟨hn, hw, rfl⟩ | ⟨hn, hw, rfl⟩ | ⟨hn, hw, rfl⟩
    · exact .inl ⟨hn, hw, rfl⟩
    · exact .inr (.inl ⟨hn, hw, rfl⟩)
    · exact .inr (.inr ⟨hn, hw, rfl⟩)
  · rintro (⟨rfl, rfl, rfl⟩ | ⟨hn, rfl, rfl⟩ | ⟨hn, rfl, rfl⟩)
    · exact ⟨.readLed, rfl, rfl⟩
    · exact ⟨.edge 0#1, by simp [stimulusOfWord, hn], rfl⟩
    · exact ⟨.edge 1#1, by simp [stimulusOfWord, hn], rfl⟩

/-- Settles O28: the four words, decoded. -/
theorem tableWordsDecode : Obligations.TableWordsDecode := by
  have htick : decodeTableWord 8 0b0 = some .tick := by simp [tableWordDecodedExactly _ _ _]
  have hreset : decodeTableWord 8 0b1 = some .reset := by simp [tableWordDecodedExactly _ _ _]
  have hpattern : decodeTableWord 0 0 = some .pattern := by simp [tableWordDecodedExactly _ _ _]
  exact ⟨htick, hreset, hpattern, rfl⟩

/-- Settles O29: as stimuli the two functions are inverse; each instruction's word is in the table. -/
theorem decodeEncodeAgree : Obligations.DecodeEncodeAgree := by
  refine ⟨fun i => ⟨decodeStimulus_encode i, ?_⟩, encode_decodeStimulus⟩
  rw [tableWordDecodedExactly]
  cases i with
  | tick => exact .inr (.inl ⟨Nat.one_ne_zero, rfl, rfl⟩)
  | reset => exact .inr (.inr ⟨Nat.one_ne_zero, rfl, rfl⟩)
  | pattern => exact .inl ⟨rfl, rfl, rfl⟩

@[simp] theorem inputWords_edge_cons (iw : InputWord) (es : List Stimulus) :
    inputWords (.edge iw :: es) = iw :: inputWords es := rfl

@[simp] theorem inputWords_readLed_cons (es : List Stimulus) :
    inputWords (.readLed :: es) = inputWords es := rfl

/-- Settles O31, by induction on the program: an edge row gives one input word, a read none. -/
theorem programRoundTrip : Obligations.ProgramRoundTrip := by
  intro is
  induction is with
  | nil => rfl
  | cons i is ih =>
    cases i with
    | tick => exact congrArg (.tick :: ·) ih
    | reset => exact congrArg (.reset :: ·) ih
    | pattern => exact ih

/-! ### One step -/

/-- Settles O32: the stimulus is taken and selects the instruction it encodes. -/
theorem stepRunsSelectedOperation : Obligations.StepRunsSelectedOperation := by
  intro s i es h
  rw [step_cons s _ es h, decodeStimulus_encode]

/-- Settles O33: the idle level of `rst` is 0, which selects TICK. -/
theorem idleStepIsTick : Obligations.IdleStepIsTick := by
  intro s h
  rw [step, s.nextStimulus_nil h, Config.rstIdle, decodeStimulus, decodeEdge_zero]

/-- Settles O34: the word's stimulus is supplied, and the next step takes it. -/
theorem suppliedWordRunsNext : Obligations.SuppliedWordRunsNext := by
  intro s nbits w i h
  obtain ⟨e, he, rfl⟩ := decodeTableWord_eq_some.1 h
  rw [State.withFetchWord, he, step, State.nextStimulus_supply]

/-- A step that takes an edge performs the operation its input word selects on the registers, and
consumes that stimulus only. -/
theorem step_edge {s : State} {iw : InputWord} {es : List Stimulus} (h : s.pending = .edge iw :: es) :
    step s = .next { regs := edgeRegs Config.N iw s.regs, pending := es, observed := s.observed } := by
  rw [step_cons s _ es h]
  rcases inputWord_eq_zero_or_one iw with rfl | rfl <;> rfl

/-- A step that takes a read records `led`, leaves the registers, and consumes that stimulus only. -/
theorem step_readLed {s : State} {es : List Stimulus} (h : s.pending = .readLed :: es) :
    step s = .next { regs := s.regs, pending := es, observed := s.led :: s.observed } := by
  rw [step_cons s _ es h]
  rfl

/-- Settles O27: bit 0 of the input word is its value. -/
theorem edgeOperationSelectedByRst : Obligations.EdgeOperationSelectedByRst := by
  intro s iw es h
  refine ⟨_, step_edge h, rfl, rfl, ?_⟩
  rcases inputWord_eq_zero_or_one iw with rfl | rfl <;> rfl

/-- Settles O13: the edge's operation is RESET, which reads no register. -/
theorem resetBeatsDueStep : Obligations.ResetBeatsDueStep :=
  fun _ _ h => ⟨_, step_edge h, rfl, rfl, rfl⟩

/-- Settles O12: RESET's commit, in numbers. -/
theorem resetWritesInitialState : Obligations.ResetWritesInitialState :=
  fun s => ⟨_, exec_reset s, rfl, rfl, rfl, rfl, rfl⟩

/-- Settles O23: the read follows the edge's commit and leaves it. -/
theorem ledFollowsPostEdgeState : Obligations.LedFollowsPostEdgeState :=
  fun _ _ _ h => ⟨_, _, step_edge h, step_readLed rfl, rfl, rfl, rfl, rfl⟩

/-- Only the move cases of TICK write the position (R105, R107). -/
theorem case_of_positionNext_ne {P : Nat} {c : TickCase} {p : BitVec P} (h : positionNext c p ≠ p) :
    c = .moveR ∨ c = .moveL := by
  cases c with
  | moveR => exact .inl rfl
  | moveL => exact .inr rfl
  | noStep => exact absurd rfl h
  | flipR => exact absurd rfl h
  | flipL => exact absurd rfl h

/-- Only the flip cases of TICK write the direction (R106, R108). -/
theorem case_of_directionNext_ne {c : TickCase} {d : Direction} (h : directionNext c d ≠ d) :
    c = .flipR ∨ c = .flipL := by
  cases c with
  | flipR => exact .inl rfl
  | flipL => exact .inr rfl
  | noStep => exact absurd rfl h
  | moveR => exact absurd rfl h
  | moveL => exact absurd rfl h

/-- Settles O36: TICK writes the position and the direction by the case it takes, RESET writes the
block's registers only, PATTERN the record of reads only. -/
theorem onlyTheNamedOperationsWriteEachRegister :
    Obligations.OnlyTheNamedOperationsWriteEachRegister := by
  intro i s
  cases i with
  | reset =>
    exact ⟨_, exec_reset s, fun _ => .inr rfl, fun _ => .inl rfl, fun _ => .inl rfl, fun _ => rfl, rfl⟩
  | pattern =>
    exact ⟨_, exec_pattern s, fun h => absurd rfl h, fun h => absurd rfl h, fun h => absurd rfl h,
      fun h => absurd rfl h, rfl⟩
  | tick =>
    exact ⟨_, exec_tick s, fun _ => .inl rfl, fun h => .inr ⟨rfl, case_of_positionNext_ne h⟩,
      fun h => .inr ⟨rfl, case_of_directionNext_ne h⟩, fun _ => rfl, rfl⟩

end Sys2Proof.Selection

namespace Sys2Proof.Run

open Sys2Proof.Machine Sys2Proof.Safety Sys2Proof.Selection

/-! SUPPORT. What a run through pending stimuli gives: the registers that the input words of its edges
give, and the record of its reads. -/

/-- The values of `led` read while the stimuli are performed from the registers, the latest first. -/
def ledReads : List Stimulus → Regs Config.W Config.P → List (BitVec Config.N)
  | [], _ => []
  | .edge iw :: es, r => ledReads es (edgeRegs Config.N iw r)
  | .readLed :: es, r => ledReads es r ++ [r.led Config.N Config.T]

/-- A run through the stimuli `es` completes, and this is the state it leads to (R117, R211). -/
theorem run_stimuli (es rest : List Stimulus) (s : State) (h : s.pending = es ++ rest) :
    Runs es.length s
      { regs := runWords Config.N (inputWords es) s.regs
        pending := rest
        observed := ledReads es s.regs ++ s.observed } := by
  induction es generalizing s with
  | nil =>
    obtain rfl : s.pending = rest := h
    rfl
  | cons e es ih =>
    cases e with
    | edge iw => exact (run_succ es.length (step_edge h)).trans (ih _ rfl)
    | readLed =>
      refine (run_succ es.length (step_readLed h)).trans ((ih _ rfl).trans ?_)
      simp only [ledReads, List.append_assoc, List.singleton_append]
      rfl

/-- Each stimulus is an edge, with one input word, or a read, with one value. -/
theorem ledReads_length_add_inputWords_length (es : List Stimulus) (r : Regs Config.W Config.P) :
    (ledReads es r).length + (inputWords es).length = es.length := by
  induction es generalizing r with
  | nil => rfl
  | cons e es ih =>
    cases e with
    | edge iw =>
      rw [ledReads, inputWords_edge_cons, List.length_cons, ← Nat.add_assoc, ih, List.length_cons]
    | readLed =>
      rw [ledReads, inputWords_readLed_cons, List.length_append, Nat.add_right_comm, ih]
      rfl

/-- Settles O40: the record of reads has one entry for each stimulus that is no edge. -/
theorem machineRefinesInputWords : Obligations.MachineRefinesInputWords := by
  intro es rest s h
  refine ⟨_, run_stimuli es rest s h, rfl, rfl, ?_⟩
  have := ledReads_length_add_inputWords_length es s.regs
  rw [List.length_append]
  omega

/-- Any number of steps completes, as each one does (R211). -/
theorem run_completes (k : Nat) (s : State) : ∃ t, Runs k s t := by
  induction k generalizing s with
  | zero => exact ⟨s, rfl⟩
  | succ k ih =>
    obtain ⟨u, hu⟩ := step_completes s
    obtain ⟨t, ht⟩ := ih u
    exact ⟨t, (run_succ k hu).trans ht⟩

/-- Settles O35: the first `k` pending stimuli are a run of `k` steps. -/
theorem machineNeverHalts : Obligations.MachineNeverHalts := by
  refine ⟨run_completes, fun k s hk => ?_⟩
  have hrun := run_stimuli (s.pending.take k) (s.pending.drop k) s (List.take_append_drop k _).symm
  rw [List.length_take, Nat.min_eq_left hk] at hrun
  exact ⟨_, hrun, rfl, rfl⟩

/-! ### Runs of reads only and of edges only -/

theorem inputWords_replicate_readLed (n : Nat) : inputWords (List.replicate n .readLed) = [] := by
  simp [inputWords, List.filterMap_replicate, Stimulus.inputWord]

theorem ledReads_replicate_readLed (n : Nat) (r : Regs Config.W Config.P) :
    ledReads (List.replicate n .readLed) r = List.replicate n (r.led Config.N Config.T) := by
  induction n with
  | zero => rfl
  | succ n ih => rw [List.replicate_succ, ledReads, ih, ← List.replicate_succ']

/-- Settles O18: reads give no input word, and each one reads the same registers. -/
theorem patternHasNoSideEffect : Obligations.PatternHasNoSideEffect := by
  intro s n es h
  have hrun := run_stimuli _ es s h
  rwa [List.length_replicate, inputWords_replicate_readLed, ledReads_replicate_readLed] at hrun

/-- The stimuli that are no reads have the same input words. -/
theorem inputWords_filter_ne_readLed (es : List Stimulus) :
    inputWords (es.filter fun e => e ≠ .readLed) = inputWords es := by
  rw [inputWords, List.filterMap_filter, inputWords]
  congr 1
  funext e
  cases e <;> rfl

/-- Without a read among the stimuli nothing is recorded. -/
theorem ledReads_of_readLed_notMem (es : List Stimulus) (h : .readLed ∉ es)
    (r : Regs Config.W Config.P) : ledReads es r = [] := by
  induction es generalizing r with
  | nil => rfl
  | cons e es ih =>
    cases e with
    | edge iw => exact ih (fun hes => h (List.mem_cons_of_mem _ hes)) _
    | readLed => exact absurd List.mem_cons_self h

/-- Settles O41: both runs give the registers of the same input words. -/
theorem readsDoNotDisturbTheBlock : Obligations.ReadsDoNotDisturbTheBlock := by
  intro es s
  have hrun := run_stimuli es [] { s with pending := es } (List.append_nil es).symm
  have hrun' := run_stimuli (es.filter fun e => e ≠ .readLed) []
    { s with pending := es.filter fun e => e ≠ .readLed } (List.append_nil _).symm
  rw [inputWords_filter_ne_readLed, ledReads_of_readLed_notMem _ (by simp)] at hrun'
  exact ⟨_, _, hrun, hrun', rfl, rfl, rfl⟩

theorem inputWords_append (es fs : List Stimulus) :
    inputWords (es ++ fs) = inputWords es ++ inputWords fs := List.filterMap_append

theorem inputWords_replicate_edge (n : Nat) (iw : InputWord) :
    inputWords (List.replicate n (.edge iw)) = List.replicate n iw := by
  simp [inputWords, List.filterMap_replicate, Stimulus.inputWord]

/-- A run of `n` TICKs: the `n`-fold TICK of the registers, and no read. -/
theorem run_tickEdges {s : State} {n : Nat} {es : List Stimulus} (h : s.pending = tickEdges n ++ es) :
    Runs n s { regs := (tickRegs Config.N)^[n] s.regs, pending := es, observed := s.observed } := by
  have hrun := run_stimuli _ es s h
  rwa [List.length_replicate, inputWords_replicate_edge, runWords_ticks,
    ledReads_of_readLed_notMem _ (by simp)] at hrun

/-- RESET held for `n >= 1` edges leads to the initial state. -/
theorem runWords_resets {W P n : Nat} (N : Nat) (h : 1 ≤ n) (r : Regs W P) :
    runWords N (List.replicate n 1#1) r = resetRegs := by
  obtain ⟨n, rfl⟩ := Nat.exists_eq_add_of_le' h
  rw [List.replicate_succ', runWords_append]
  rfl

/-- RESET held for `n >= 1` edges and then `k` TICKs: the `k`-fold TICK of the initial state. -/
theorem run_resetEdges_tickEdges {s : State} {n k : Nat} {es : List Stimulus} (hn : 1 ≤ n)
    (h : s.pending = resetEdges n ++ tickEdges k ++ es) :
    Runs (n + k) s
      { regs := (tickRegs Config.N)^[k] resetRegs, pending := es, observed := s.observed } := by
  have hrun := run_stimuli _ es s h
  rwa [List.length_append, List.length_replicate, List.length_replicate, inputWords_append,
    inputWords_replicate_edge, inputWords_replicate_edge, runWords_append, runWords_resets _ hn,
    runWords_ticks, ledReads_of_readLed_notMem _ (by simp)] at hrun

/-! ### The observation of a run -/

/-- Settles O42, by induction on the input words. -/
theorem observationHasOneEntryPerEdge : Obligations.ObservationHasOneEntryPerEdge := by
  intro W P N T ws r
  induction ws generalizing r with
  | nil => exact ⟨rfl, fun k hk => absurd hk (Nat.not_lt_zero k)⟩
  | cons iw ws ih =>
    obtain ⟨hlength, hentry⟩ := ih (edgeRegs N iw r)
    refine ⟨congrArg Nat.succ hlength, fun k hk => ?_⟩
    cases k with
    | zero => rfl
    | succ k => exact hentry k (Nat.lt_of_succ_lt_succ hk)

end Sys2Proof.Run

namespace Sys2Proof.Cycle

open Sys2Proof.Machine Sys2Proof.Safety Sys2Proof.EdgeOps Sys2Proof.Output Sys2Proof.Run

/-! SUPPORT. Runs of TICKs. The legal states lie on one cycle: `phase` numbers the pairs (position,
direction) in the order of the bounce sequence (40_edge_ops.md R112), `cycleIndex` the states, and TICK
adds one to the index (R115). -/

variable {W P N : Nat} {r : Regs W P}

/-! ### One TICK in numbers -/

/-- Settles O10: the increment wraps only from the greatest value. -/
theorem stepConditionIsAllOnes : Obligations.StepConditionIsAllOnes := by
  intro W d
  have hlt := d.isLt
  rw [stepEn_eq_true]
  constructor
  · intro hwrap
    by_contra hne
    rw [Nat.mod_eq_of_lt (by omega)] at hwrap
    omega
  · intro hmax
    rw [hmax, Nat.sub_add_cancel Nat.one_le_two_pow, Nat.mod_self]

/-- Away from a step the divider does not wrap. -/
theorem dividerNext_toNat_of_not_step {d : BitVec W} (hs : stepEn d = false) :
    (dividerNext d).toNat = d.toNat + 1 := by
  have hne : d.toNat ≠ 2 ^ W - 1 := fun h => by simp [(stepConditionIsAllOnes W d).2 h] at hs
  have hlt := d.isLt
  rw [dividerNext_toNat, Nat.mod_eq_of_lt (by omega)]

/-- A legal position below the boundary has room in the register. -/
theorem toNat_add_one_of_legal (hN : N ≤ 2 ^ P) (hr : Legal N r) (hb : r.head ≠ N - 1) :
    (r.position + 1#P).toNat = r.position.toNat + 1 := by
  unfold Legal Regs.head at hr
  unfold Regs.head at hb
  exact toNat_add_one (by omega)

/-- Settles O9: each case of TICK commits what its branch of the pseudocode says. -/
theorem tickFollowsPseudocodeAtAnyParameters : Obligations.TickFollowsPseudocodeAtAnyParameters := by
  intro W P N r _ hP hr
  refine ⟨dividerNext_toNat _, ?_⟩
  rcases tickRegs_cases N r with ⟨hs, -, ht⟩ | ⟨hs, hd, hb, -, ht⟩ | ⟨hs, hd, hb, -, ht⟩ |
    ⟨hs, hd, hb, -, ht⟩ | ⟨hs, hd, hb, -, ht⟩
  · rw [if_neg ((stepEn_eq_false _).1 hs), ht]
  · rw [if_pos ((stepEn_eq_true _).1 hs), ht, hd, toNat_add_one_of_legal hP hr hb]
    exact (if_neg hb).symm
  · rw [if_pos ((stepEn_eq_true _).1 hs), ht, hd]
    exact (if_pos hb).symm
  · rw [if_pos ((stepEn_eq_true _).1 hs), ht, hd, ← toNat_sub_one_add_one hb, Nat.add_sub_cancel]
    exact (if_neg (Nat.succ_ne_zero _)).symm
  · rw [if_pos ((stepEn_eq_true _).1 hs), ht, hd]
    exact (if_pos hb).symm

/-- The condition of TICK's case holds (R85). -/
theorem caseCondition_tickCase (N : Nat) (r : Regs W P) : caseCondition N r (tickCase N r) := by
  rcases tickRegs_cases N r with ⟨hs, hc, -⟩ | ⟨hs, hd, hb, hc, -⟩ | ⟨hs, hd, hb, hc, -⟩ |
    ⟨hs, hd, hb, hc, -⟩ | ⟨hs, hd, hb, hc, -⟩
  · rw [hc]; exact hs
  · rw [hc]; exact ⟨hs, hd, hb⟩
  · rw [hc]; exact ⟨hs, hd, hb⟩
  · rw [hc]; exact ⟨hs, hd, hb⟩
  · rw [hc]; exact ⟨hs, hd, hb⟩

/-- A condition that holds is that of TICK's case (R85). -/
theorem tickCase_eq_of_caseCondition {c : TickCase} (h : caseCondition N r c) : tickCase N r = c := by
  cases c with
  | noStep => exact (tickRegs_noStep h).1
  | moveR => obtain ⟨hs, hd, hb⟩ := h; exact (tickRegs_moveR hs hd hb).1
  | flipR => obtain ⟨hs, hd, hb⟩ := h; exact (tickRegs_flipR hs hd hb).1
  | moveL => obtain ⟨hs, hd, hb⟩ := h; exact (tickRegs_moveL hs hd hb).1
  | flipL => obtain ⟨hs, hd, hb⟩ := h; exact (tickRegs_flipL hs hd hb).1

/-- Settles O11: the conditions determine the case that TICK takes. -/
theorem tickCasesExclusiveAndExhaustive : Obligations.TickCasesExclusiveAndExhaustive :=
  fun _ _ N r _ _ => ⟨caseCondition_tickCase N r, fun _ h => (tickCase_eq_of_caseCondition h).symm⟩

/-! ### The phase -/

/-- The place of the pair (position, direction) in the bounce sequence from `(0, Right)` (R112). -/
def phase (N : Nat) (r : Regs W P) : Nat :=
  match r.direction with
  | .right => r.head
  | .left => 2 * N - 1 - r.head

theorem phase_of_right (h : r.direction = .right) : phase N r = r.head := by
  simp [phase, h]

theorem phase_of_left (h : r.direction = .left) : phase N r = 2 * N - 1 - r.head := by
  simp [phase, h]

theorem phase_lt (hr : Legal N r) : phase N r < 2 * N := by
  unfold Legal at hr
  unfold phase
  split <;> omega

/-- The phase of a legal state determines its pair. -/
theorem pair_eq_bounce_phase (hr : Legal N r) :
    r.position.toNat = bouncePosition N (phase N r) ∧
      r.direction = bounceDirection N (phase N r) := by
  have hlt : r.position.toNat < N := hr
  cases hd : r.direction with
  | right =>
    have hmod : r.position.toNat % (2 * N) = r.position.toNat := Nat.mod_eq_of_lt (by omega)
    rw [phase_of_right hd, bouncePosition, bounceDirection, Regs.head, hmod]
    simp [hlt]
  | left =>
    have hmod : (2 * N - 1 - r.position.toNat) % (2 * N) = 2 * N - 1 - r.position.toNat :=
      Nat.mod_eq_of_lt (by omega)
    have hge : ¬ 2 * N - 1 - r.position.toNat < N := by omega
    rw [phase_of_left hd, bouncePosition, bounceDirection, Regs.head, hmod, if_neg hge, if_neg hge]
    exact ⟨by omega, rfl⟩

/-- What TICK does to a legal state's head and phase: nothing without a step; at a step the head stays
an LED and the phase moves on by one, around the cycle of `2N`. -/
theorem tickRegs_legal_and_phase (hP : N ≤ 2 ^ P) (hr : Legal N r) :
    Legal N (tickRegs N r) ∧ phase N (tickRegs N r) =
      if stepEn r.divider then (phase N r + 1) % (2 * N) else phase N r := by
  have hlt : r.position.toNat < N := hr
  rcases tickRegs_cases N r with ⟨hs, -, ht⟩ | ⟨hs, hd, hb, -, ht⟩ | ⟨hs, hd, hb, -, ht⟩ |
    ⟨hs, hd, hb, -, ht⟩ | ⟨hs, hd, hb, -, ht⟩
  · simp only [ht, hs]
    exact ⟨hr, rfl⟩
  · have hup := toNat_add_one_of_legal hP hr hb
    unfold Regs.head at hb
    simp only [ht, hs, if_true, phase, hd, Legal, Regs.head, hup]
    rw [Nat.mod_eq_of_lt] <;> omega
  · unfold Regs.head at hb
    simp only [ht, hs, if_true, phase, hd, Legal, Regs.head]
    rw [Nat.mod_eq_of_lt] <;> omega
  · have hdown := toNat_sub_one_add_one hb
    simp only [ht, hs, if_true, phase, hd, Legal, Regs.head]
    rw [Nat.mod_eq_of_lt] <;> omega
  · unfold Regs.head at hb
    simp only [ht, hs, if_true, phase, hd, Legal, Regs.head, hb]
    rw [show 2 * N - 1 - 0 + 1 = 2 * N by omega, Nat.mod_self]
    exact ⟨by omega, rfl⟩

/-- No edge leaves the legal states (10_state.md R26). -/
theorem edgeRegs_legal (iw : InputWord) (hN : 1 ≤ N) (hP : N ≤ 2 ^ P) (hr : Legal N r) :
    Legal N (edgeRegs N iw r) := by
  unfold edgeRegs
  split
  · exact (tickRegs_legal_and_phase hP hr).1
  · simpa [Legal, resetRegs, Regs.head] using Nat.lt_of_succ_le hN
  · exact hr

/-- Settles O37, by induction on the input words. -/
theorem legalPositionInEveryRun : Obligations.LegalPositionInEveryRun := by
  intro W P N ws r hN hP hr
  induction ws generalizing r with
  | nil => exact hr
  | cons iw ws ih => exact ih _ (edgeRegs_legal iw hN hP hr)

/-! ### The cycle -/

/-- The place of a state in the cycle of legal states (R115). -/
def cycleIndex (N : Nat) (r : Regs W P) : Nat := 2 ^ W * phase N r + r.divider.toNat

theorem cycleIndex_lt (hr : Legal N r) : cycleIndex N r < 2 ^ W * (2 * N) := by
  have hd := r.divider.isLt
  calc cycleIndex N r < 2 ^ W * phase N r + 2 ^ W := Nat.add_lt_add_left hd _
    _ = 2 ^ W * (phase N r + 1) := rfl
    _ ≤ 2 ^ W * (2 * N) := Nat.mul_le_mul_left _ (phase_lt hr)

theorem cycleIndex_mod (N : Nat) (r : Regs W P) : cycleIndex N r % 2 ^ W = r.divider.toNat := by
  rw [cycleIndex, Nat.mul_add_mod, Nat.mod_eq_of_lt r.divider.isLt]

theorem cycleIndex_add_div (N t : Nat) (r : Regs W P) :
    (cycleIndex N r + t) / 2 ^ W = phase N r + (r.divider.toNat + t) / 2 ^ W := by
  rw [cycleIndex, Nat.add_assoc, Nat.mul_add_div (Nat.two_pow_pos W)]

theorem cycleIndex_div (N : Nat) (r : Regs W P) : cycleIndex N r / 2 ^ W = phase N r := by
  rw [cycleIndex, Nat.mul_add_div (Nat.two_pow_pos W), Nat.div_eq_of_lt r.divider.isLt, Nat.add_zero]

/-- The registers are the triple and nothing more (10_state.md R20). -/
theorem regs_ext {r r' : Regs W P} (hdivider : r.divider = r'.divider)
    (hposition : r.position = r'.position) (hdirection : r.direction = r'.direction) : r = r' := by
  cases r
  cases hdivider
  cases hposition
  cases hdirection
  rfl

/-- A legal state's index determines it. -/
theorem eq_of_cycleIndex_eq {r' : Regs W P} (hr : Legal N r) (hr' : Legal N r')
    (h : cycleIndex N r = cycleIndex N r') : r = r' := by
  have hdivider : r.divider = r'.divider :=
    BitVec.eq_of_toNat_eq (by rw [← cycleIndex_mod N r, h, cycleIndex_mod])
  have hphase : phase N r = phase N r' := by rw [← cycleIndex_div, h, cycleIndex_div]
  obtain ⟨hpos, hdir⟩ := pair_eq_bounce_phase hr
  obtain ⟨hpos', hdir'⟩ := pair_eq_bounce_phase hr'
  exact regs_ext hdivider (BitVec.eq_of_toNat_eq (by rw [hpos, hpos', hphase]))
    (by rw [hdir, hdir', hphase])

/-- TICK adds one to the index: a carry out of the divider moves the phase on. -/
theorem cycleIndex_tickRegs (hP : N ≤ 2 ^ P) (hr : Legal N r) :
    cycleIndex N (tickRegs N r) = (cycleIndex N r + 1) % (2 ^ W * (2 * N)) := by
  obtain ⟨hlegal, hphase⟩ := tickRegs_legal_and_phase hP hr
  cases hs : stepEn r.divider with
  | false =>
    have hindex : cycleIndex N (tickRegs N r) = cycleIndex N r + 1 := by
      rw [cycleIndex, hphase, hs, tickRegs_divider, dividerNext_toNat_of_not_step hs]
      rfl
    rw [← hindex, Nat.mod_eq_of_lt (cycleIndex_lt hlegal)]
  | true =>
    have hd : r.divider.toNat + 1 = 2 ^ W := by
      rw [(stepConditionIsAllOnes W _).1 hs, Nat.sub_add_cancel Nat.one_le_two_pow]
    have hindex : cycleIndex N r + 1 = 2 ^ W * (phase N r + 1) := by
      rw [cycleIndex, Nat.add_assoc, hd, Nat.mul_succ]
    rw [hindex, Nat.mul_mod_mul_left, cycleIndex, hphase, hs, if_pos rfl, tickRegs_divider,
      dividerNext_toNat_of_step ((stepEn_eq_true _).1 hs), Nat.add_zero]

/-- A run of TICKs stays legal, and goes along the cycle. -/
theorem tickRegs_iterate_legal_and_cycleIndex (hP : N ≤ 2 ^ P) (hr : Legal N r) (t : Nat) :
    Legal N ((tickRegs N)^[t] r) ∧
      cycleIndex N ((tickRegs N)^[t] r) = (cycleIndex N r + t) % (2 ^ W * (2 * N)) := by
  induction t with
  | zero => exact ⟨hr, (Nat.mod_eq_of_lt (cycleIndex_lt hr)).symm⟩
  | succ t ih =>
    obtain ⟨hlegal, hindex⟩ := ih
    rw [Function.iterate_succ_apply']
    refine ⟨(tickRegs_legal_and_phase hP hlegal).1, ?_⟩
    rw [cycleIndex_tickRegs hP hlegal, hindex, Nat.mod_add_mod, Nat.add_assoc]

/-- The index after a run that leads once around the cycle or less. -/
theorem tickRegs_iterate_eq_iff {r' : Regs W P} (hP : N ≤ 2 ^ P) (hr : Legal N r)
    (hr' : Legal N r') (t : Nat) :
    (tickRegs N)^[t] r = r' ↔ (cycleIndex N r + t) % (2 ^ W * (2 * N)) = cycleIndex N r' := by
  obtain ⟨hlegal, hindex⟩ := tickRegs_iterate_legal_and_cycleIndex hP hr t
  rw [← hindex]
  exact ⟨fun h => by rw [h], eq_of_cycleIndex_eq hlegal hr'⟩

/-- Settles O47: the index runs through the residues modulo `2N * 2^W`, one per TICK. -/
theorem ticksAreOneCycleThroughLegalStates : Obligations.TicksAreOneCycleThroughLegalStates := by
  intro W P N r _ hP hr
  have hi := cycleIndex_lt hr
  rw [Nat.mul_comm (2 * N)]
  refine ⟨?_, fun t h0 ht heq => ?_, fun r' hr' => ?_⟩
  · rw [tickRegs_iterate_eq_iff hP hr hr, Nat.add_mod_right, Nat.mod_eq_of_lt hi]
  · rw [tickRegs_iterate_eq_iff hP hr hr] at heq
    rcases Nat.lt_or_ge (cycleIndex N r + t) (2 ^ W * (2 * N)) with h | h
    · rw [Nat.mod_eq_of_lt h] at heq
      omega
    · rw [Nat.mod_eq_sub_mod h, Nat.mod_eq_of_lt (by omega)] at heq
      omega
  · have hi' := cycleIndex_lt hr'
    simp only [tickRegs_iterate_eq_iff hP hr hr']
    rcases Nat.lt_or_ge (cycleIndex N r') (cycleIndex N r) with h | h
    · refine ⟨cycleIndex N r' + 2 ^ W * (2 * N) - cycleIndex N r, by omega, ?_⟩
      rw [Nat.add_sub_cancel' (by omega), Nat.add_mod_right, Nat.mod_eq_of_lt hi']
    · refine ⟨cycleIndex N r' - cycleIndex N r, by omega, ?_⟩
      rw [Nat.add_sub_cancel' h, Nat.mod_eq_of_lt hi']

/-! ### The bounce sequence -/

/-- The bounce sequence has period `2N`. -/
theorem bouncePosition_mod (N k : Nat) : bouncePosition N (k % (2 * N)) = bouncePosition N k := by
  rw [bouncePosition, bouncePosition, Nat.mod_mod]

theorem bounceDirection_mod (N k : Nat) : bounceDirection N (k % (2 * N)) = bounceDirection N k := by
  rw [bounceDirection, bounceDirection, Nat.mod_mod]

/-- The pair after `t` TICKs from a legal state: the phase has moved on by the carries out of the
divider. -/
theorem tickRegs_iterate_pair (hP : N ≤ 2 ^ P) (hr : Legal N r) (t : Nat) :
    ((tickRegs N)^[t] r).position.toNat =
        bouncePosition N (phase N r + (r.divider.toNat + t) / 2 ^ W) ∧
      ((tickRegs N)^[t] r).direction =
        bounceDirection N (phase N r + (r.divider.toNat + t) / 2 ^ W) := by
  obtain ⟨hlegal, hindex⟩ := tickRegs_iterate_legal_and_cycleIndex hP hr t
  have hphase : phase N ((tickRegs N)^[t] r) =
      (phase N r + (r.divider.toNat + t) / 2 ^ W) % (2 * N) := by
    rw [← cycleIndex_div, hindex, Nat.mod_mul_right_div_self, cycleIndex_add_div]
  rw [← bouncePosition_mod, ← bounceDirection_mod, ← hphase]
  exact pair_eq_bounce_phase hlegal

/-- The step events among the first `t` TICKs are the carries out of the divider (R102, R103). -/
theorem stepEvents_eq_div (N t : Nat) (r : Regs W P) :
    stepEvents N t r = (r.divider.toNat + t) / 2 ^ W := by
  induction t with
  | zero => exact (Nat.div_eq_of_lt r.divider.isLt).symm
  | succ t ih =>
    have hstep : stepEn ((tickRegs N)^[t] r).divider = true ↔ 2 ^ W ∣ r.divider.toNat + t + 1 := by
      rw [stepEn_eq_true, tickRegs_iterate_divider, Nat.mod_add_mod, Nat.dvd_iff_mod_eq_zero]
    rw [stepEvents] at ih ⊢
    rw [List.range_succ, List.countP_append, ih, List.countP_singleton, ← Nat.add_assoc,
      Nat.succ_div]
    simp only [hstep]

/-- Settles O44: from `(0, Right)` the phase is the number of step events. -/
theorem bounceSequence : Obligations.BounceSequence := by
  intro W P N t r hN hP hpos hdir
  have hhead : r.head = 0 := hpos
  have hr : Legal N r := by rw [Legal, hhead]; exact hN
  have hphase : phase N r = 0 := by rw [phase_of_right hdir, hhead]
  have hpair := tickRegs_iterate_pair hP hr t
  rwa [hphase, Nat.zero_add, ← stepEvents_eq_div N] at hpair

/-- With one LED the bounce sequence alternates (R116). -/
theorem bounceDirection_one (k : Nat) :
    bounceDirection 1 k = if k % 2 = 0 then .right else .left := by
  simp only [bounceDirection, Nat.mul_one, Nat.lt_one_iff]

/-- Settles O48: with one LED the phase is the direction, and every carry inverts it. -/
theorem singleLedAlternates : Obligations.SingleLedAlternates := by
  intro W P t r hpos
  have hr : Legal 1 r := by rw [Legal, Regs.head, hpos]; exact Nat.one_pos
  obtain ⟨hlegal, -⟩ := tickRegs_iterate_legal_and_cycleIndex Nat.one_le_two_pow hr t
  obtain ⟨-, hdir⟩ := tickRegs_iterate_pair Nat.one_le_two_pow hr t
  refine ⟨Nat.lt_one_iff.1 hlegal, ?_⟩
  rw [hdir, bounceDirection_one]
  cases hd : r.direction with
  | right => simp [phase_of_right hd, Regs.head, hpos]
  | left =>
    have hflip (k : Nat) : (1 + k) % 2 = 1 ↔ k % 2 = 0 := by omega
    simp [phase_of_left hd, Regs.head, hpos, hflip]

/-- Settles O43: the `n`-th TICK steps when it makes the count a multiple of `2^W`. -/
theorem stepCadence : Obligations.StepCadence := by
  intro W P N r n hn
  have hlt := r.divider.isLt
  have hcount : r.divider.toNat + (n - 1) + 1 = r.divider.toNat + n := by omega
  have hstep : stepEn ((tickRegs N)^[n - 1] r).divider = true ↔ (r.divider.toNat + n) % 2 ^ W = 0 := by
    rw [stepEn_eq_true, tickRegs_iterate_divider, Nat.mod_add_mod, hcount]
  rw [hstep, tickRegs_iterate_divider]
  refine ⟨⟨fun h => ?_, ?_⟩, id⟩
  · obtain ⟨c, hc⟩ := Nat.dvd_of_mod_eq_zero h
    cases c with
    | zero => omega
    | succ m => exact ⟨m, by rw [Nat.mul_succ, Nat.mul_comm] at hc; omega⟩
  · rintro ⟨m, rfl⟩
    rw [← Nat.add_assoc, Nat.add_sub_cancel' hlt.le, Nat.add_mul_mod_self_right, Nat.mod_self]

/-! ### The machine's runs of TICKs -/

/-- The closed form of `n` TICKs from the initial registers (R115). -/
theorem tickRegs_iterate_resetRegs (n : Nat) :
    ((tickRegs 8)^[n] (resetRegs : Regs 23 3)).divider.toNat = n % 2 ^ 23 ∧
      ((tickRegs 8)^[n] (resetRegs : Regs 23 3)).position.toNat = bouncePosition 8 (n / 2 ^ 23) ∧
      ((tickRegs 8)^[n] (resetRegs : Regs 23 3)).direction = bounceDirection 8 (n / 2 ^ 23) := by
  have hpair := tickRegs_iterate_pair (N := 8) (r := (resetRegs : Regs 23 3)) (by decide) (by decide) n
  have hzero : (resetRegs : Regs 23 3).divider.toNat + n = n := Nat.zero_add n
  have hphase : phase 8 (resetRegs : Regs 23 3) = 0 := rfl
  rw [hphase, hzero, Nat.zero_add] at hpair
  refine ⟨?_, hpair⟩
  rw [tickRegs_iterate_divider, hzero]

/-- Settles O46: the run is the iterated TICK of the initial registers. -/
theorem tickRunClosedForm : Obligations.TickRunClosedForm := by
  intro s n es hregs hpending
  have hrun := run_tickEdges hpending
  rw [hregs] at hrun
  exact ⟨_, hrun, rfl, rfl, tickRegs_iterate_resetRegs n⟩

/-- Settles O45: the closed form at 14, 15 and 16 step periods. -/
theorem bounceReturnsAfterSixteenSteps : Obligations.BounceReturnsAfterSixteenSteps := by
  intro s k es hregs hpending
  obtain ⟨t, hrun, hrest, hobs, hdivider, hposition, hdirection⟩ :=
    tickRunClosedForm s (k * 2 ^ 23) es hregs hpending
  rw [Nat.mul_mod_left] at hdivider
  rw [Nat.mul_div_cancel _ (Nat.two_pow_pos 23)] at hposition hdirection
  have hregs' (p : BitVec 3) (d : Direction) (hp : bouncePosition 8 k = p.toNat)
      (hd : bounceDirection 8 k = d) :
      t.regs = { divider := 0#23, position := p, direction := d } :=
    regs_ext (BitVec.eq_of_toNat_eq hdivider) (BitVec.eq_of_toNat_eq (hposition.trans hp))
      (hdirection.trans hd)
  refine ⟨t, hrun, hrest, hobs, ?_, ?_, ?_⟩
  · rintro rfl
    exact hregs' 1#3 .left rfl rfl
  · rintro rfl
    exact hregs' 0#3 .left rfl rfl
  · rintro rfl
    rw [hregs]
    exact hregs' 0#3 .right rfl rfl

/-- Settles O14: the closed form within the first step period and at its end. -/
theorem firstStepComesAFullPeriodAfterReset : Obligations.FirstStepComesAFullPeriodAfterReset := by
  intro s n k es hn hk hpending
  obtain ⟨hdivider, hposition, hdirection⟩ := tickRegs_iterate_resetRegs k
  refine ⟨_, run_resetEdges_tickEdges hn hpending, rfl, hdivider, ?_⟩
  rcases hk.lt_or_eq with hlt | rfl
  · rw [Nat.div_eq_of_lt hlt] at hposition hdirection
    exact ⟨hdirection, hposition.trans (if_neg hlt.ne).symm⟩
  · rw [Nat.div_self (Nat.two_pow_pos 23)] at hposition hdirection
    exact ⟨hdirection, hposition⟩

/-- Settles O15: up to `2^21` TICKs no step fires, and the trail is bit 21 of their number. -/
theorem ledAfterResetUntilTrailRises : Obligations.LedAfterResetUntilTrailRises := by
  intro s k es hk hpending
  obtain ⟨-, hposition, -⟩ := tickRegs_iterate_resetRegs k
  have htrail := trailOn_tickRegs_iterate (T := 21) (by decide) 8 k (resetRegs : Regs 23 3)
  refine ⟨_, run_resetEdges_tickEdges (n := 1) (Nat.le_refl 1) hpending, ?_⟩
  have hled : ((tickRegs 8)^[k] (resetRegs : Regs 23 3)).led 8 21 = pattern 8 0 (k.testBit 21) := by
    rw [Regs.led, htrail, Regs.head, hposition, Nat.div_eq_of_lt (by omega)]
    simp [resetRegs, bouncePosition]
  refine Eq.trans hled ?_
  rcases hk.lt_or_eq with hlt | rfl
  · rw [if_neg hlt.ne, Nat.testBit_lt_two_pow hlt]
    rfl
  · rw [if_pos rfl, Nat.testBit_two_pow_self]
    rfl

/-- Settles O26: bit 21 of the number of TICKs is the parity of its quarter period. -/
theorem trailTimelineWithinStepPeriod : Obligations.TrailTimelineWithinStepPeriod := by
  intro s k es hdivider hk hpending
  refine ⟨_, run_tickEdges hpending, ?_⟩
  rw [trailOn_tickRegs_iterate (by decide), hdivider, Nat.testBit_eq_decide_div_mod_eq]
  simp only [BitVec.toNat_zero, Nat.zero_add, decide_eq_true_iff, Config.T]
  omega

end Sys2Proof.Cycle

namespace Sys2Proof.Build

open Sys2Proof.Machine

/-! SUPPORT. Construction (60_exceptions.md R205), the position width (00_scope.md R10) and traces
(30_encoding.md R86). -/

/-- Settles O49: the search from 1 with fuel `N` is wide enough, as `N <= 2^N`. -/
theorem positionWidthIsLeast : Obligations.PositionWidthIsLeast := by
  refine ⟨fun N => leastWidthFrom_spec N 1 N ?_, rfl⟩
  exact (Nat.le_add_left N 1).trans Nat.lt_two_pow_self.le

/-- Construction on legal parameters and a legal start state builds that state. -/
theorem construct_of_legal {p : Params} {d q : Nat} (dir : Direction) (hW : 1 ≤ p.W) (hN : 1 ≤ p.N)
    (hT : p.T < p.W) (hd : d < 2 ^ p.W) (hq : q < p.N) :
    construct p d q dir =
      .ok { divider := BitVec.ofNat _ d, position := BitVec.ofNat _ q, direction := dir } := by
  simp [construct, Params.widthOk, Params.ledsOk, Params.trailOk, Params.dividerOk,
    Params.positionOk, *]

/-- A legal start position fits the derived position width (R10). -/
theorem position_lt_two_pow {p : Params} {q : Nat} (h : q < p.N) : q < 2 ^ posWidthOf p := by
  obtain ⟨hwidth, -⟩ := positionWidthIsLeast
  obtain ⟨-, hle, -⟩ := hwidth p.N
  exact Nat.lt_of_lt_of_le h hle

/-- Settles O50: the numbers that pass the checks fit their registers. -/
theorem constructionRefusesExactlyIllegal : Obligations.ConstructionRefusesExactlyIllegal := by
  intro p d q dir r
  constructor
  · intro h
    obtain ⟨⟨hW, hN, hT, hd, hq⟩, rfl⟩ := construct_ok h
    exact ⟨⟨hW, hN, hT, hd, hq⟩, Nat.mod_eq_of_lt hd, Nat.mod_eq_of_lt (position_lt_two_pow hq), rfl⟩
  · rintro ⟨⟨hW, hN, hT, hd, hq⟩, rfl, rfl, rfl⟩
    rw [construct_of_legal r.direction hW hN hT hd hq, BitVec.ofNat_toNat, BitVec.ofNat_toNat,
      BitVec.setWidth_eq, BitVec.setWidth_eq]

/-- `RESET*n` is the `n`-fold RESET. -/
theorem runWords_resets_iterate {W P : Nat} (N n : Nat) (r : Regs W P) :
    runWords N (List.replicate n 1#1) r = (fun _ => resetRegs)^[n] r := by
  induction n generalizing r with
  | zero => rfl
  | succ n ih => exact ih _

/-- A line of edges runs as its input words. -/
theorem runLine_eq_runWords (p : Params) (l : TraceLine) (r : Regs p.W (posWidthOf p))
    (hstart : ∀ d q dir, l ≠ .start d q dir) (hexpect : ∀ d q dir x, l ≠ .expect d q dir x) :
    runLine p l r = .ok (runWords p.N (lineWords l) r) := by
  cases l with
  | tick => rfl
  | reset => rfl
  | tickTimes n => rw [lineWords, runWords_ticks, runLine]
  | resetTimes n => rw [lineWords, runWords_resets_iterate, runLine]
  | start d q dir => exact absurd rfl (hstart d q dir)
  | expect d q dir x => exact absurd rfl (hexpect d q dir x)

/-- Settles O51, by induction on the lines. -/
theorem traceRunsAsItsEncoding : Obligations.TraceRunsAsItsEncoding := by
  intro p ls r h
  induction ls generalizing r with
  | nil => rfl
  | cons l ls ih =>
    obtain ⟨⟨hstart, hexpect⟩, hls⟩ := List.forall_mem_cons.1 h
    rw [traceWords, runWords_append, runTrace, runLine_eq_runWords p l r hstart hexpect]
    exact ih _ hls

end Sys2Proof.Build
